-- ==== Sys2Proof/Word.lean ====
section
/-! DEFINITION. The unit of every access (R6 `BYTE_W`, R7): a byte is an unsigned 8-bit value, and nothing in the block is
wider or signed. -/

namespace Sys2Proof

/-- "an 8-bit unsigned value, 0–255" (R9). -/
abbrev Byte := BitVec 8

end Sys2Proof
end

