-- ==== Sys2Proof/Config.lean ====
section
/-! DEFINITION. The closed sets of names the spec fixes, the parameters of R6, and the two values it leaves open. -/

namespace Sys2Proof

/-- The two encoding variants; the set is closed (R2, R113). -/
inductive Method where
  | A
  | B
  deriving DecidableEq, Repr, Inhabited

/-- The two error kinds of a decode; the set is closed (R140). -/
inductive ErrorKind where
  | unknownMethod
  | malformedStream
  deriving DecidableEq, Repr, Inhabited

/-- The values of the register `err` (R11, R18). -/
inductive Err where
  | none
  | unknownMethod
  | malformedStream
  deriving DecidableEq, Repr

/-- The ten control states (R12). -/
inductive Phase where
  | idle
  | encScan
  | decTag
  | decACnt
  | decAVal
  | decBFirst
  | decBSecond
  | decBCnt
  | done
  | error
  deriving DecidableEq, Repr

namespace Config

/-- `RUN_CAP`, the largest length the run-boundary detector reports (R6). -/
def runCap : Byte := 255#8

/-- `TAG_A` (R6, R51). -/
def tagA : Byte := 0x21#8

/-- `TAG_B` (R6, R51). -/
def tagB : Byte := 0x8A#8

/-- `EMPTY_DECODE_ERR`, OPEN (R6, R112, D12): which of the two kinds `DEC` raises on an input of no bytes. No body: a claim
holds for both values. Log 5. -/
opaque emptyDecodeErr : ErrorKind

/-- `Tok(m, v, 0)`: the spec defines `Tok` for lengths 1..255 only and says 0 is never passed (R76, R80). No body: nothing is
known of it. Log 6, DESIGN CHOICE. -/
opaque tokOfZero : Method → Byte → List Byte

end Config

end Sys2Proof
end

