-- ==== Sys2Proof/Syntax.lean ====
section
/-! DEFINITION. The 26 rows of the opcode table (R63): three commands, three token formats, twenty transitions driven by a
symbol. An operand is what the row's encoding carries: the byte read, or a token's fields. -/

namespace Sys2Proof

/-- What one read of the source returns (R57): one of 256 bytes, or end of input, which carries no data. -/
inductive Symbol where
  | byte (b : Byte)
  | eoi
  deriving DecidableEq, Repr

/-- The block's instructions, one constructor a row of `spec/opcode_table.json`. -/
inductive Instr where
  /-- `ENC.A` (R106). -/
  | encA
  /-- `ENC.B` (R107). -/
  | encB
  /-- `DEC` (R108); `CMD[0]` is ignored. -/
  | dec
  /-- `A.PAIR`: `[count][value]` (R52). -/
  | aPair (count value : Byte)
  /-- `B.LIT`: `[value]` (R53). -/
  | bLit (value : Byte)
  /-- `B.RUN`: `[value][value][count]` (R53). -/
  | bRun (value count : Byte)
  /-- `SCAN.FIRST` (R71). -/
  | scanFirst (b : Byte)
  /-- `SCAN.EXTEND` (R72). -/
  | scanExtend (b : Byte)
  /-- `SCAN.CAP` (R73). -/
  | scanCap (b : Byte)
  /-- `SCAN.BREAK` (R74). -/
  | scanBreak (b : Byte)
  /-- `SCAN.END` (R75). -/
  | scanEnd
  /-- `TAG.A` (R109). -/
  | tagA
  /-- `TAG.B` (R110). -/
  | tagB
  /-- `TAG.ILL` (R111). -/
  | tagIll (t : Byte)
  /-- `TAG.EOI` (R112). -/
  | tagEoi
  /-- `DA.COUNT` (R81). -/
  | daCount (c : Byte)
  /-- `DA.END` (R83). -/
  | daEnd
  /-- `DA.VALUE` (R82). -/
  | daValue (v : Byte)
  /-- `DA.TRUNC` (R84). -/
  | daTrunc
  /-- `DB.FIRST` (R92). -/
  | dbFirst (b : Byte)
  /-- `DB.END0` (R96). -/
  | dbEnd0
  /-- `DB.LIT` (R93). -/
  | dbLit (b : Byte)
  /-- `DB.PAIR` (R94). -/
  | dbPair (b : Byte)
  /-- `DB.END1` (R97). -/
  | dbEnd1
  /-- `DB.COUNT` (R95). -/
  | dbCount (c : Byte)
  /-- `DB.TRUNC` (R98). -/
  | dbTrunc
  deriving DecidableEq, Repr

end Sys2Proof
end

