-- ==== Sys2Proof/WellFormed.lean ====
section
/-! DEFINITION. Which terms of `Instr` are instructions. Every operand takes all 256 values (R54, R55) but one: the operand of
`TAG.ILL` is none of the two defined tags (R111). -/

namespace Sys2Proof

/-- A term that stands for a row of the table with operands its encoding admits. -/
def Instr.wf : Instr → Bool
  | .encA | .encB | .dec => true
  | .aPair _ _ | .bLit _ | .bRun _ _ => true
  | .scanFirst _ | .scanExtend _ | .scanCap _ | .scanBreak _ | .scanEnd => true
  | .tagA | .tagB | .tagEoi => true
  | .tagIll t => t != Config.tagA && t != Config.tagB
  | .daCount _ | .daEnd | .daValue _ | .daTrunc => true
  | .dbFirst _ | .dbEnd0 | .dbLit _ | .dbPair _ | .dbEnd1 | .dbCount _ | .dbTrunc => true

end Sys2Proof
end

