-- ==== Sys2Proof/Decode.lean ====
section
/-! DEFINITION. The decoder and the encoder of the three levels of R63: the command word (R58), the tokens of a payload
(R52, R53) and the transition map (R62), which needs a context because "the symbol alone does not select a transition"
(R63). The encoder is written from the same tables. -/

namespace Sys2Proof

/-- What the selection of a transition looks at besides the symbol (R62). -/
structure Ctx where
  phase   : Phase
  runOpen : Bool
  cur     : Byte
  runLen  : Byte
  b1      : Byte
  deriving DecidableEq, Repr

/-- The bits of an instruction at its own level: `CMD`, the 9-bit input symbol, or a token's bytes in wire order. -/
inductive Code where
  | cmd (w : BitVec 2)
  | symbol (w : BitVec 9)
  | token (bytes : List Byte)
  deriving DecidableEq, Repr

/-- Why the decoder gives no instruction. -/
inductive Reject where
  /-- The phase reads no symbol (R12: `IDLE`, `DONE`, `ERROR`). -/
  | phaseReadsNothing
  /-- No token starts in this phase (R62: tokens start in `DEC_A_CNT` and `DEC_B_FIRST` only). -/
  | notAtTokenBoundary
  /-- There is no byte: the payload ends at a token boundary (R83, R96). -/
  | emptyPayload
  /-- A count byte without its value byte (R84). -/
  | halfPair
  /-- A run marker without its count byte (R98). -/
  | cutRun
  /-- Bytes are left after the token. -/
  | trailingBytes
  deriving DecidableEq, Repr

/-! ## Commands -/

/-- R58: `CMD[1]` is `cmd_op`, `CMD[0]` is `cmd_method`, which a `DEC` ignores. All four code points are defined. -/
def decodeCmd (w : BitVec 2) : Instr :=
  if w.getLsbD 1 then .dec else if w.getLsbD 0 then .encB else .encA

/-! ## Symbols -/

/-- R57: `in_eoi = 1` is `EOI` whatever `in_data` is. -/
def symbolOfWord (w : BitVec 9) : Symbol :=
  if w.getLsbD 8 then .eoi else .byte (w.setWidth 8)

/-- R57, with `in_data = 0` beside `in_eoi = 1`. -/
def wordOfSymbol : Symbol → BitVec 9
  | .byte b => b.setWidth 9
  | .eoi => 0x100#9

/-- Rows 4 to 8 of R62, phase `ENC_SCAN`. -/
def decodeScan (c : Ctx) : Symbol → Instr
  | .eoi => .scanEnd
  | .byte b =>
    if c.runOpen = false then .scanFirst b
    else if b = c.cur then
      if c.runLen = Config.runCap then .scanCap b else .scanExtend b
    else .scanBreak b

/-- Rows 9 to 12 of R62, phase `DEC_TAG`: all eight bits are compared (R51). -/
def decodeTag : Symbol → Instr
  | .eoi => .tagEoi
  | .byte t => if t = Config.tagA then .tagA else if t = Config.tagB then .tagB else .tagIll t

/-- Rows 4 to 23 of R62: the transition of a phase on a symbol. -/
def decodeSymbol (c : Ctx) (x : Symbol) : Except Reject Instr :=
  match c.phase, x with
  | .idle, _ | .done, _ | .error, _ => .error .phaseReadsNothing
  | .encScan, x => .ok (decodeScan c x)
  | .decTag, x => .ok (decodeTag x)
  | .decACnt, .byte b => .ok (.daCount b)
  | .decACnt, .eoi => .ok .daEnd
  | .decAVal, .byte b => .ok (.daValue b)
  | .decAVal, .eoi => .ok .daTrunc
  | .decBFirst, .byte b => .ok (.dbFirst b)
  | .decBFirst, .eoi => .ok .dbEnd0
  | .decBSecond, .byte b => .ok (if b = c.b1 then .dbPair b else .dbLit b)
  | .decBSecond, .eoi => .ok .dbEnd1
  | .decBCnt, .byte b => .ok (.dbCount b)
  | .decBCnt, .eoi => .ok .dbTrunc

/-! ## Tokens -/

/-- The first token of a payload and the bytes after it, greedily from the left (R52, R53). A list that ends stands for a
payload that ends. -/
def splitToken : Method → List Byte → Except Reject (Instr × List Byte)
  | _, [] => .error .emptyPayload
  | .A, [_] => .error .halfPair
  | .A, c :: v :: rest => .ok (.aPair c v, rest)
  | .B, [v] => .ok (.bLit v, [])
  | .B, v :: w :: rest =>
    if w = v then
      match rest with
      | [] => .error .cutRun
      | c :: rest' => .ok (.bRun v c, rest')
    else .ok (.bLit v, w :: rest)

/-- The method whose tokens start in a phase, if one does (R62). -/
def tokenMethod : Phase → Option Method
  | .decACnt => some .A
  | .decBFirst => some .B
  | .idle | .encScan | .decTag | .decAVal | .decBSecond | .decBCnt | .done | .error => none

/-- Exactly one token, at a token boundary of a decode. -/
def decodeToken (c : Ctx) (bytes : List Byte) : Except Reject Instr :=
  match tokenMethod c.phase with
  | none => .error .notAtTokenBoundary
  | some m =>
    match splitToken m bytes with
    | .error r => .error r
    | .ok (i, []) => .ok i
    | .ok (_, _ :: _) => .error .trailingBytes

/-! ## The whole decoder, and the encoder -/

/-- The instruction a code stands for in a context, or the name of what is wrong with it. -/
def decode (c : Ctx) : Code → Except Reject Instr
  | .cmd w => .ok (decodeCmd w)
  | .symbol w => decodeSymbol c (symbolOfWord w)
  | .token bytes => decodeToken c bytes

/-- The symbol whose read a transition follows (R62); commands and tokens have none. -/
def Instr.symbol? : Instr → Option Symbol
  | .encA | .encB | .dec | .aPair _ _ | .bLit _ | .bRun _ _ => none
  | .scanFirst b | .scanExtend b | .scanCap b | .scanBreak b => some (.byte b)
  | .scanEnd | .tagEoi | .daEnd | .daTrunc | .dbEnd0 | .dbEnd1 | .dbTrunc => some .eoi
  | .tagA => some (.byte Config.tagA)
  | .tagB => some (.byte Config.tagB)
  | .tagIll t => some (.byte t)
  | .daCount b | .daValue b | .dbFirst b | .dbLit b | .dbPair b | .dbCount b => some (.byte b)

/-- The code of an instruction (R52, R53, R57, R58); ignored bits are written as 0. -/
def encode : Instr → Code
  | .encA => .cmd 0b00#2
  | .encB => .cmd 0b01#2
  | .dec => .cmd 0b10#2
  | .aPair count value => .token [count, value]
  | .bLit value => .token [value]
  | .bRun value count => .token [value, value, count]
  | .scanFirst b => .symbol (wordOfSymbol (.byte b))
  | .scanExtend b => .symbol (wordOfSymbol (.byte b))
  | .scanCap b => .symbol (wordOfSymbol (.byte b))
  | .scanBreak b => .symbol (wordOfSymbol (.byte b))
  | .scanEnd => .symbol (wordOfSymbol .eoi)
  | .tagA => .symbol (wordOfSymbol (.byte Config.tagA))
  | .tagB => .symbol (wordOfSymbol (.byte Config.tagB))
  | .tagIll t => .symbol (wordOfSymbol (.byte t))
  | .tagEoi => .symbol (wordOfSymbol .eoi)
  | .daCount c => .symbol (wordOfSymbol (.byte c))
  | .daEnd => .symbol (wordOfSymbol .eoi)
  | .daValue v => .symbol (wordOfSymbol (.byte v))
  | .daTrunc => .symbol (wordOfSymbol .eoi)
  | .dbFirst b => .symbol (wordOfSymbol (.byte b))
  | .dbEnd0 => .symbol (wordOfSymbol .eoi)
  | .dbLit b => .symbol (wordOfSymbol (.byte b))
  | .dbPair b => .symbol (wordOfSymbol (.byte b))
  | .dbEnd1 => .symbol (wordOfSymbol .eoi)
  | .dbCount c => .symbol (wordOfSymbol (.byte c))
  | .dbTrunc => .symbol (wordOfSymbol .eoi)

/-- A phase in which a command is accepted (R12, R105). -/
def Phase.acceptsCommand : Phase → Bool
  | .idle | .done | .error => true
  | .encScan | .decTag | .decACnt | .decAVal | .decBFirst | .decBSecond | .decBCnt => false

/-- The "phase" and "condition" columns of R62, row by row: where each instruction applies. Tokens apply at the token
boundaries of their method. -/
def admits (c : Ctx) : Instr → Bool
  | .encA | .encB | .dec => c.phase.acceptsCommand
  | .aPair _ _ => c.phase == .decACnt
  | .bLit _ | .bRun _ _ => c.phase == .decBFirst
  | .scanFirst _ => c.phase == .encScan && !c.runOpen
  | .scanExtend b => c.phase == .encScan && c.runOpen && b == c.cur && decide (c.runLen.toNat < Config.runCap.toNat)
  | .scanCap b => c.phase == .encScan && c.runOpen && b == c.cur && c.runLen == Config.runCap
  | .scanBreak b => c.phase == .encScan && c.runOpen && b != c.cur
  | .scanEnd => c.phase == .encScan
  | .tagA | .tagB | .tagEoi => c.phase == .decTag
  | .tagIll t => c.phase == .decTag && t != Config.tagA && t != Config.tagB
  | .daCount _ | .daEnd => c.phase == .decACnt
  | .daValue _ | .daTrunc => c.phase == .decAVal
  | .dbFirst _ | .dbEnd0 => c.phase == .decBFirst
  | .dbLit b => c.phase == .decBSecond && b != c.b1
  | .dbPair b => c.phase == .decBSecond && b == c.b1
  | .dbEnd1 => c.phase == .decBSecond
  | .dbCount _ | .dbTrunc => c.phase == .decBCnt

/-! ## A word of the opcode table -/

/-- Byte `k` of a token given as one number. DESIGN CHOICE (log 15): the first byte on the wire is bits 7:0. R63 gives a token as a
pattern in wire order and no number. -/
def byteOfWord (w k : Nat) : Byte := BitVec.ofNat 8 (w / 256 ^ k)

/-- The phase and the code a bare table word is read in (log 15): a command word where two bits suffice; a symbol in phase
`DEC_TAG`, the one phase where the symbol's bits are the opcode (R51), where nine suffice; else a token at its
method's boundary. -/
def tableCode (nbits w : Nat) : Option (Phase × Code) :=
  if w < 2 ^ nbits then
    if nbits = 2 ∨ nbits = 8 then
      if w < 4 then some (.idle, .cmd (BitVec.ofNat 2 w)) else some (.decBFirst, .token [byteOfWord w 0])
    else if nbits = 9 ∨ nbits = 16 then
      if w < 512 then some (.decTag, .symbol (BitVec.ofNat 9 w))
      else some (.decACnt, .token [byteOfWord w 0, byteOfWord w 1])
    else if nbits = 24 then
      some (.decBFirst, .token [byteOfWord w 0, byteOfWord w 1, byteOfWord w 2])
    else none
  else none

/-- The instruction the decoder reads from a bare word of the opcode table. -/
def decodeTableWord (nbits w : Nat) : Option Instr :=
  match tableCode nbits w with
  | none => none
  | some (p, code) => (decode ⟨p, false, 0, 0, 0⟩ code).toOption

end Sys2Proof
end

