-- ==== Sys2Proof/Machine/State.lean ====
section
/-! DEFINITION. The state: the ten registers of R11, the two streams of R22 and R30, what the host will do, and one field of the
model's own (`tokenGrain`, log 14). All of it plain data. -/

namespace Sys2Proof.Machine

/-- The two spaces of R30 with their cursors (R22). There is no address (R30, R36): the source is a list with the number of
bytes delivered, the sink a list that only grows. Log 2. -/
structure Memory where
  /-- `IN`: what the source delivers in this operation. -/
  src      : List Byte
  /-- Whether `EOI` follows the last byte of `IN` (R163 item 2, R169; log 10). -/
  ends     : Bool
  /-- How many bytes of `IN` have been delivered. -/
  ipos     : Nat
  /-- Whether a read of this operation has returned `EOI`. -/
  eoiTaken : Bool
  /-- `OUT`, kept across operations (R22): every byte the sink holds. -/
  sink     : List Byte
  /-- The length of `sink` when this operation began (R28; log 19). -/
  base     : Nat
  deriving DecidableEq, Repr

/-- R22: `0 <= ipos <= len(IN)`, `EOI` is taken only at the end of an input that has one, and this operation's output is a
final part of the sink. -/
abbrev Memory.wf (m : Memory) : Prop :=
  m.ipos ≤ m.src.length ∧ (m.eoiTaken = true → m.ipos = m.src.length ∧ m.ends = true) ∧ m.base ≤ m.sink.length

/-- A stream the environment attaches to the source before an operation (R163). -/
structure Stream where
  bytes : List Byte
  ends  : Bool
  deriving DecidableEq, Repr

/-- One act of the host (R10), in the order it will perform them. Log 8. -/
inductive HostEvent where
  /-- Present `CMD` until it is taken (R105, R168), with the stream the source is then positioned at; `none` where the
  environment has not repositioned the source (R167). -/
  | command (w : BitVec 2) (src : Option Stream)
  /-- Let the core take one step of its own. -/
  | wait
  /-- Assert `rst` (R160). -/
  | reset
  deriving DecidableEq, Repr

structure State where
  phase      : Phase
  method     : Method
  err        : Err
  runOpen    : Bool
  cur        : Byte
  runLen     : Byte
  cnt        : Byte
  b1         : Byte
  laValid    : Bool
  laByte     : Byte
  mem        : Memory
  host       : List HostEvent
  /-- The model's own: `false`, a step reads one symbol (D2); `true`, a step at a token boundary takes a whole token (R101).
  Log 14. -/
  tokenGrain : Bool
  deriving DecidableEq, Repr

/-- What stops the machine. The error kinds of R140 are no faults: raising one is a next state (R147). -/
inductive Fault where
  /-- `Unread` with `la_valid = 1`, which R33 forbids: raised by `unread`, reached by no step (R23 item 2). Safe. Log 13. -/
  | pushbackFull
  deriving DecidableEq, Repr

/-- Why an instruction gets no meaning. -/
inductive Refusal where
  /-- The instruction has no meaning yet: raised by `exec`'s refused arms only. Safe. -/
  | notModelled (mnemonic : String)
  /-- The row does not apply to this state and symbol: R62 gives it no effect there ("a (phase, symbol) pair with no row cannot
  occur"). Raised by the meanings of transitions and tokens, reached by no step. Safe. Log 12. -/
  | notSelected
  deriving DecidableEq, Repr

/-- R25. The registers R25 leaves without a value hold zero and `A` (log 3); no source is attached and the sink is empty
(log 17). -/
def State.reset : State where
  phase := .idle
  method := .A
  err := .none
  runOpen := false
  cur := 0
  runLen := 0
  cnt := 0
  b1 := 0
  laValid := false
  laByte := 0
  mem := { src := [], ends := true, ipos := 0, eoiTaken := false, sink := [], base := 0 }
  host := []
  tokenGrain := false

end Sys2Proof.Machine
end

