-- ==== Sys2Proof/Machine/Operands.lean ====
section
/-! DEFINITION. The operands of the instructions: the symbol a step reads (R31, R33), the token at a boundary (R101), the copies
of a byte (R7) and the token an encoder emits (R80, R90, R91). Nothing here changes the state. -/

namespace Sys2Proof.Machine

/-- `rep(n, v)` (R7). -/
def rep (n : Nat) (v : Byte) : List Byte := List.replicate n v

/-- `TAG(m)` (R51). -/
def tagByte : Method → Byte
  | .A => Config.tagA
  | .B => Config.tagB

/-- `Tok(m, v, n)` (R80, R90, R91); outside its domain, for `n = 0`, a free value (log 6). -/
def tok (m : Method) (v n : Byte) : List Byte :=
  if n = 0 then Config.tokOfZero m v
  else match m with
    | .A => [n, v]
    | .B => if n = 1 then [v] else [v, v, n]

/-- What `InRead()` would return (R31); `none` where the source has delivered all it has and no `EOI` follows (R169). -/
def State.peekIn (s : State) : Option Symbol :=
  match s.mem.src[s.mem.ipos]? with
  | some b => some (.byte b)
  | none => if s.mem.ends then some .eoi else none

/-- What `DecRead()` would return (R33). -/
def State.peekDec (s : State) : Option Symbol :=
  if s.laValid then some (.byte s.laByte) else s.peekIn

/-- The "read" column of R62. -/
inductive ReadKind where
  | nothing
  | inRead
  | decRead
  deriving DecidableEq, Repr

/-- Which read a step in a phase begins with (R12, R62). -/
def readKind : Phase → ReadKind
  | .idle | .done | .error => .nothing
  | .encScan | .decTag | .decACnt | .decAVal => .inRead
  | .decBFirst | .decBSecond | .decBCnt => .decRead

/-- The symbol the next step would read, if there is one. -/
def State.peek (s : State) : Option Symbol :=
  match readKind s.phase with
  | .nothing => none
  | .inRead => s.peekIn
  | .decRead => s.peekDec

/-- The registers the selection of a transition looks at (R62). -/
def State.ctx (s : State) : Ctx :=
  ⟨s.phase, s.runOpen, s.cur, s.runLen, s.b1⟩

/-- The bytes of `IN` not delivered yet. -/
def Memory.rest (m : Memory) : List Byte := m.src.drop m.ipos

/-- The bytes the next `DecRead`s would return, the pushed-back byte first. -/
def State.lookahead (s : State) : List Byte :=
  if s.laValid then s.laByte :: s.mem.rest else s.mem.rest

/-- The transition the next symbol selects (R62); `none` in a phase that reads nothing and while the source pauses. -/
def State.fetchSymbol (s : State) : Option Instr :=
  match s.peek with
  | none => none
  | some x => (decodeSymbol s.ctx x).toOption

/-- The whole token at a token boundary (R101), if the source holds all of it: a lone byte is a `B.LIT` only once a different
byte or the end of input is known to follow (R53). -/
def State.fetchToken (s : State) : Option Instr :=
  match tokenMethod s.phase with
  | none => none
  | some .A => (splitToken .A s.mem.rest).toOption.map Prod.fst
  | some .B =>
    if s.mem.ends = false ∧ s.lookahead.length ≤ 1 then none
    else (splitToken .B s.lookahead).toOption.map Prod.fst

/-- What the next step of the core's own executes. -/
def State.fetch (s : State) : Option Instr :=
  if s.tokenGrain then
    match s.fetchToken with
    | some i => some i
    | none => s.fetchSymbol
  else s.fetchSymbol

end Sys2Proof.Machine
end

