-- ==== Sys2Proof/Machine/Flags.lean ====
section
/-! DEFINITION. What the host sees: the status word, a pure function of `phase` and `err` (R20), and the ready line of the
command channel (R45); and the numeric codes of R59 and R60. -/

namespace Sys2Proof.Machine

/-- The error code of R59. -/
def errCode : Err → BitVec 2
  | .none => 0#2
  | .unknownMethod => 1#2
  | .malformedStream => 2#2

/-- The reference encoding of R60; visible at no port. -/
def phaseCode : Phase → BitVec 4
  | .idle => 0#4
  | .encScan => 1#4
  | .decTag => 2#4
  | .decACnt => 3#4
  | .decAVal => 4#4
  | .decBFirst => 5#4
  | .decBSecond => 6#4
  | .decBCnt => 7#4
  | .done => 8#4
  | .error => 9#4

/-- `st_busy` (R20): an operation is running. -/
def State.busy (s : State) : Bool :=
  match s.phase with
  | .encScan | .decTag | .decACnt | .decAVal | .decBFirst | .decBSecond | .decBCnt => true
  | .idle | .done | .error => false

/-- `st_done` (R20). -/
def State.isDone (s : State) : Bool := s.phase == .done

/-- `STATUS[3:0]` = `{st_err[1:0], st_done, st_busy}` (R20). -/
def State.status (s : State) : BitVec 4 :=
  errCode s.err ++ BitVec.ofBool s.isDone ++ BitVec.ofBool s.busy

/-- `cmd_ready` (R45): exactly in `IDLE`, `DONE`, `ERROR`. -/
def State.cmdReady (s : State) : Bool := s.phase.acceptsCommand

end Sys2Proof.Machine
end

