-- ==== Sys2Proof/Machine/Ops.lean ====
section
/-! DEFINITION. The operations the meanings share: the primitives of R8 (`InRead`, `DecRead`, `Unread`, `OutWrite`), raising an
error (R147), the two ways an error is left, a command (R105) and reset (R160), and a step on one symbol. -/

namespace Sys2Proof.Machine

/-! ## The streams -/

/-- `InRead()` (R31); `none` while the source pauses. -/
def State.inRead (s : State) : Option (Symbol × State) :=
  match s.mem.src[s.mem.ipos]? with
  | some b => some (.byte b, { s with mem := { s.mem with ipos := s.mem.ipos + 1 } })
  | none =>
    if s.mem.ends then some (.eoi, { s with mem := { s.mem with eoiTaken := true } }) else none

/-- `DecRead()` (R33): the pushed-back byte before anything else, without touching the source. -/
def State.decRead (s : State) : Option (Symbol × State) :=
  if s.laValid then some (.byte s.laByte, { s with laValid := false }) else s.inRead

/-- `OutWrite(l)` (R34). -/
def State.outWrite (s : State) (l : List Byte) : State :=
  { s with mem := { s.mem with sink := s.mem.sink ++ l } }

/-- `Unread(b)` (R33), whose precondition is an empty buffer (log 13). -/
def State.unread (s : State) (b : Byte) : Host.Outcome State Fault Refusal :=
  if s.laValid then .fault .pushbackFull else .next { s with laByte := b, laValid := true }

/-- The one read of a step (R62). -/
def State.read (s : State) : Option (Symbol × State) :=
  match readKind s.phase with
  | .nothing => none
  | .inRead => s.inRead
  | .decRead => s.decRead

/-! ## Errors, commands, reset -/

/-- The register value of an error kind. -/
def errOf : ErrorKind → Err
  | .unknownMethod => .unknownMethod
  | .malformedStream => .malformedStream

/-- `raise K` (R147): the kind is recorded, the block halts in `ERROR`, nothing is written, no register is saved. -/
def State.raiseError (s : State) (k : ErrorKind) : State :=
  { s with err := errOf k, phase := .error }

/-- What the acceptance of any command does (R105). A new `IN` begins at the first byte not delivered (R167, log 9), and this
operation's output begins at the end of the sink. -/
def State.accept (s : State) : State :=
  { s with
    runOpen := false
    laValid := false
    err := .none
    mem := { s.mem with
      src := s.mem.rest
      ipos := 0
      eoiTaken := false
      base := s.mem.sink.length } }

/-- Reset (R25, R160, R161): the four registers with a reset value take it; the streams stay as they are. No operation is left,
so none has taken `EOI` (log 11). -/
def State.applyReset (s : State) : State :=
  { s with
    phase := .idle
    err := .none
    runOpen := false
    laValid := false
    mem := { s.mem with eoiTaken := false } }

/-- A command's own effect, behind the acceptance common to all three (R105): outside `IDLE`, `DONE`, `ERROR` "it has no effect
whatever" (R19). -/
def onCommand (s : State) (eff : State → State) : Host.Outcome State Fault Refusal :=
  if s.cmdReady then .next (eff s.accept) else .next s

/-! ## A step on one symbol -/

/-- A transition of R62: in its phase, where its state condition holds and its one read returns its symbol, the effect applies
to the state after that read; anywhere else the row is not selected (log 12). -/
def onSymbol (p : Phase) (x : Symbol) (cond : Bool) (s : State)
    (eff : State → Host.Outcome State Fault Refusal) : Host.Outcome State Fault Refusal :=
  if s.phase = p ∧ cond = true then
    match s.read with
    | some (y, t) => if y = x then eff t else .refused .notSelected
    | none => .refused .notSelected
  else .refused .notSelected

/-- One step and then another, where the first gives a next state. -/
def andThen (o : Host.Outcome State Fault Refusal) (f : State → Host.Outcome State Fault Refusal) :
    Host.Outcome State Fault Refusal :=
  match o with
  | .next t => f t
  | .fault r => .fault r
  | .refused r => .refused r

/-! ## The environment, and what the next step does -/

/-- The host's list after an act of it. -/
def State.withHost (s : State) (l : List HostEvent) : State := { s with host := l }

/-- The environment positions the source at a stream (R163), or leaves it where it is (R167). -/
def State.attach (s : State) : Option Stream → State
  | none => s
  | some st => { s with mem := { s.mem with src := st.bytes, ends := st.ends, ipos := 0, eoiTaken := false } }

/-- What a step of the machine does: run an instruction, or pass to a state without one. -/
inductive Due where
  | run (i : Instr) (s : State)
  | pass (s : State)
  deriving DecidableEq, Repr

/-- The core's own next transition (R62; in token grain the token at a boundary). Where there is none, in `IDLE`, `DONE`,
`ERROR` and while the source pauses, "the core has no step of its own" (R12): nothing changes (log 8, 10). -/
def State.dueCore (s : State) : Due :=
  match s.fetch with
  | some i => .run i s
  | none => .pass s

/-- Reset takes precedence over every step (R160); a command is taken where `cmd_ready` is 1, and otherwise it waits while the
core goes on (R105, R168). -/
def State.due (s : State) : Due :=
  match s.host with
  | [] => s.dueCore
  | .wait :: l => (s.withHost l).dueCore
  | .reset :: l => .pass (s.withHost l).applyReset
  | .command w src :: l =>
    if s.cmdReady then .run (decodeCmd w) ((s.withHost l).attach src) else s.dueCore

/-- `s` in phase `p` with no operation's registers live, and the host with nothing to do but `l`. -/
def State.poised (s : State) (p : Phase) (l : List HostEvent) : State :=
  { s with phase := p, err := .none, runOpen := false, laValid := false, host := l }

/-- The source delivers exactly `bytes` and then `EOI`, nothing delivered yet. -/
def State.supplied (s : State) (bytes : List Byte) : State :=
  { s with mem := { s.mem with src := bytes, ends := true, ipos := 0, eoiTaken := false } }

/-- The code of a bare table word placed where the next step takes it (log 15, 16): a command word is presented by the host in
`IDLE`; a symbol or a token is what the source delivers, in the phase the word is read in. -/
def State.place (s : State) (p : Phase) : Code → State
  | .cmd c => s.poised p [.command c none]
  | .symbol c =>
    { (s.poised p []).supplied (match symbolOfWord c with
        | .byte b => [b]
        | .eoi => []) with tokenGrain := false }
  | .token bytes => { (s.poised p []).supplied bytes with tokenGrain := true }

end Sys2Proof.Machine
end

