-- ==== Sys2Proof/Machine/Command.lean ====
section
/-! DEFINITION. The three commands (R105 to R108). -/

namespace Sys2Proof.Machine

/-- `ENC.A` (R106). -/
def execEncA (s : State) : Host.Outcome State Fault Refusal :=
  onCommand s fun t => { t with method := .A, phase := .encScan }.outWrite [tagByte .A]

/-- `ENC.B` (R107). -/
def execEncB (s : State) : Host.Outcome State Fault Refusal :=
  onCommand s fun t => { t with method := .B, phase := .encScan }.outWrite [tagByte .B]

/-- `DEC` (R108). `method` holds no value until the tag step; the register keeps its bits (log 4). -/
def execDec (s : State) : Host.Outcome State Fault Refusal :=
  onCommand s fun t => { t with phase := .decTag }

end Sys2Proof.Machine
end

