-- ==== Sys2Proof/Machine/Scan.lean ====
section
/-! DEFINITION. The run-boundary detector, phase `ENC_SCAN` (R71 to R75). -/

namespace Sys2Proof.Machine

/-- `SCAN.FIRST` (R71). -/
def execScanFirst (b : Byte) (s : State) : Host.Outcome State Fault Refusal :=
  onSymbol .encScan (.byte b) (!s.runOpen) s fun t =>
    .next { t with cur := b, runLen := 1, runOpen := true }

/-- `SCAN.EXTEND` (R72). -/
def execScanExtend (b : Byte) (s : State) : Host.Outcome State Fault Refusal :=
  onSymbol .encScan (.byte b) (s.runOpen && b == s.cur && decide (s.runLen.toNat < Config.runCap.toNat)) s fun t =>
    .next { t with runLen := s.runLen + 1 }

/-- `SCAN.CAP` (R73). -/
def execScanCap (b : Byte) (s : State) : Host.Outcome State Fault Refusal :=
  onSymbol .encScan (.byte b) (s.runOpen && b == s.cur && s.runLen == Config.runCap) s fun t =>
    .next ({ t with runLen := 1 }.outWrite (tok s.method s.cur Config.runCap))

/-- `SCAN.BREAK` (R74): the token is of the old `cur` and `run_len`. -/
def execScanBreak (b : Byte) (s : State) : Host.Outcome State Fault Refusal :=
  onSymbol .encScan (.byte b) (s.runOpen && b != s.cur) s fun t =>
    .next ({ t with cur := b, runLen := 1 }.outWrite (tok s.method s.cur s.runLen))

/-- `SCAN.END` (R75). -/
def execScanEnd (s : State) : Host.Outcome State Fault Refusal :=
  onSymbol .encScan .eoi true s fun t =>
    .next ({ t with runOpen := false, phase := .done }.outWrite
      (if s.runOpen then tok s.method s.cur s.runLen else []))

end Sys2Proof.Machine
end

