-- ==== Sys2Proof/Machine/Tag.lean ====
section
/-! DEFINITION. The framing tag dispatcher, phase `DEC_TAG` (R109 to R112). -/

namespace Sys2Proof.Machine

/-- `TAG.A` (R109). -/
def execTagA (s : State) : Host.Outcome State Fault Refusal :=
  onSymbol .decTag (.byte (tagByte .A)) true s fun t => .next { t with method := .A, phase := .decACnt }

/-- `TAG.B` (R110). -/
def execTagB (s : State) : Host.Outcome State Fault Refusal :=
  onSymbol .decTag (.byte (tagByte .B)) true s fun t => .next { t with method := .B, phase := .decBFirst }

/-- `TAG.ILL` (R111): `raise UnknownMethod`; one byte consumed, the rest of the input left with the source (R149). -/
def execTagIll (b : Byte) (s : State) : Host.Outcome State Fault Refusal :=
  onSymbol .decTag (.byte b) (b != tagByte .A && b != tagByte .B) s fun t =>
    .next (t.raiseError .unknownMethod)

/-- `TAG.EOI` (R112): an error of the kind `EMPTY_DECODE_ERR` (log 5). -/
def execTagEoi (s : State) : Host.Outcome State Fault Refusal :=
  onSymbol .decTag .eoi true s fun t => .next (t.raiseError Config.emptyDecodeErr)

end Sys2Proof.Machine
end

