-- ==== Sys2Proof/Machine/MethodA.lean ====
section
/-! DEFINITION. The Method-A decoder (R81 to R85). -/

namespace Sys2Proof.Machine

/-- `DA.COUNT` (R81): every count is accepted, 0 included. -/
def execDaCount (c : Byte) (s : State) : Host.Outcome State Fault Refusal :=
  onSymbol .decACnt (.byte c) true s fun t => .next { t with cnt := c, phase := .decAVal }

/-- `DA.VALUE` (R82): `cnt` copies; none for 0 (R85). -/
def execDaValue (v : Byte) (s : State) : Host.Outcome State Fault Refusal :=
  onSymbol .decAVal (.byte v) true s fun t =>
    .next ({ t with phase := .decACnt }.outWrite (rep s.cnt.toNat v))

/-- `DA.END` (R83). -/
def execDaEnd (s : State) : Host.Outcome State Fault Refusal :=
  onSymbol .decACnt .eoi true s fun t => .next { t with phase := .done }

/-- `DA.TRUNC` (R84): `raise MalformedStream`. -/
def execDaTrunc (s : State) : Host.Outcome State Fault Refusal :=
  onSymbol .decAVal .eoi true s fun t => .next (t.raiseError .malformedStream)

end Sys2Proof.Machine
end

