-- ==== Sys2Proof/Machine/MethodB.lean ====
section
/-! DEFINITION. The Method-B decoder (R92 to R100). -/

namespace Sys2Proof.Machine

/-- `DB.FIRST` (R92). -/
def execDbFirst (b : Byte) (s : State) : Host.Outcome State Fault Refusal :=
  onSymbol .decBFirst (.byte b) true s fun t => .next { t with b1 := b, phase := .decBSecond }

/-- `DB.LIT` (R93): the first byte was a literal; the second is pushed back. -/
def execDbLit (b : Byte) (s : State) : Host.Outcome State Fault Refusal :=
  onSymbol .decBSecond (.byte b) (b != s.b1) s fun t =>
    ({ t with phase := .decBFirst }.outWrite [s.b1]).unread b

/-- `DB.PAIR` (R94): a run marker; nothing is written. -/
def execDbPair (b : Byte) (s : State) : Host.Outcome State Fault Refusal :=
  onSymbol .decBSecond (.byte b) (b == s.b1) s fun t => .next { t with phase := .decBCnt }

/-- `DB.COUNT` (R95): `c` copies; one for 1 (R99), none for 0 (R100, log 7). -/
def execDbCount (c : Byte) (s : State) : Host.Outcome State Fault Refusal :=
  onSymbol .decBCnt (.byte c) true s fun t =>
    .next ({ t with phase := .decBFirst }.outWrite (rep c.toNat s.b1))

/-- `DB.END0` (R96). -/
def execDbEnd0 (s : State) : Host.Outcome State Fault Refusal :=
  onSymbol .decBFirst .eoi true s fun t => .next { t with phase := .done }

/-- `DB.END1` (R97): the byte held was a final literal. -/
def execDbEnd1 (s : State) : Host.Outcome State Fault Refusal :=
  onSymbol .decBSecond .eoi true s fun t => .next ({ t with phase := .done }.outWrite [s.b1])

/-- `DB.TRUNC` (R98): `raise MalformedStream`; neither marker byte is written. -/
def execDbTrunc (s : State) : Host.Outcome State Fault Refusal :=
  onSymbol .decBCnt .eoi true s fun t => .next (t.raiseError .malformedStream)

end Sys2Proof.Machine
end

