-- ==== Sys2Proof/Machine/Token.lean ====
section
/-! DEFINITION. The three token formats as instructions: a token is decoded by the transitions its bytes select, in order (R52,
R53, R101). -/

namespace Sys2Proof.Machine

/-- `A.PAIR` (R52): `DA.COUNT` on the count, `DA.VALUE` on the value. -/
def execAPair (count value : Byte) (s : State) : Host.Outcome State Fault Refusal :=
  andThen (execDaCount count s) (execDaValue value)

/-- `B.LIT` (R53): `DB.FIRST` on the value, then `DB.LIT` on the byte that follows or `DB.END1` at the end of input. -/
def execBLit (value : Byte) (s : State) : Host.Outcome State Fault Refusal :=
  andThen (execDbFirst value s) fun t =>
    match t.peek with
    | some (.byte b) => execDbLit b t
    | some .eoi => execDbEnd1 t
    | none => .refused .notSelected

/-- `B.RUN` (R53): `DB.FIRST`, `DB.PAIR` on the same value, `DB.COUNT` on the count. -/
def execBRun (value count : Byte) (s : State) : Host.Outcome State Fault Refusal :=
  andThen (execDbFirst value s) fun t => andThen (execDbPair value t) (execDbCount count)

end Sys2Proof.Machine
end

