-- ==== Sys2Proof/Machine/Dispatch.lean ====
section
/-! DEFINITION. One arm per row of the opcode table. -/

namespace Sys2Proof.Machine

def exec (i : Instr) (s : State) : Host.Outcome State Fault Refusal :=
  match i with
  | .encA => Sys2Proof.Machine.execEncA s
  | .encB => Sys2Proof.Machine.execEncB s
  | .dec => Sys2Proof.Machine.execDec s
  | .aPair count value => Sys2Proof.Machine.execAPair count value s
  | .bLit value => Sys2Proof.Machine.execBLit value s
  | .bRun value count => Sys2Proof.Machine.execBRun value count s
  | .scanFirst b => Sys2Proof.Machine.execScanFirst b s
  | .scanExtend b => Sys2Proof.Machine.execScanExtend b s
  | .scanCap b => Sys2Proof.Machine.execScanCap b s
  | .scanBreak b => Sys2Proof.Machine.execScanBreak b s
  | .scanEnd => Sys2Proof.Machine.execScanEnd s
  | .tagA => Sys2Proof.Machine.execTagA s
  | .tagB => Sys2Proof.Machine.execTagB s
  | .tagIll t => Sys2Proof.Machine.execTagIll t s
  | .tagEoi => Sys2Proof.Machine.execTagEoi s
  | .daCount c => Sys2Proof.Machine.execDaCount c s
  | .daEnd => Sys2Proof.Machine.execDaEnd s
  | .daValue v => Sys2Proof.Machine.execDaValue v s
  | .daTrunc => Sys2Proof.Machine.execDaTrunc s
  | .dbFirst b => Sys2Proof.Machine.execDbFirst b s
  | .dbEnd0 => Sys2Proof.Machine.execDbEnd0 s
  | .dbLit b => Sys2Proof.Machine.execDbLit b s
  | .dbPair b => Sys2Proof.Machine.execDbPair b s
  | .dbEnd1 => Sys2Proof.Machine.execDbEnd1 s
  | .dbCount c => Sys2Proof.Machine.execDbCount c s
  | .dbTrunc => Sys2Proof.Machine.execDbTrunc s

end Sys2Proof.Machine
end

