-- ==== Sys2Proof/Machine/Step.lean ====
section
/-! DEFINITION. One step of the machine: an act of the host that is due, or the core's own next transition (R62). -/

namespace Sys2Proof.Machine

/-- One step: the instruction that is due, or a passage without one (`State.due`). -/
def step (s : State) : Host.Outcome State Fault Refusal :=
  match s.due with
  | .run i t => exec i t
  | .pass t => .next t

/-- `s` ready to run the instruction of a bare table word as its very next step (log 15, 16). -/
def State.withFetchWord (s : State) (nbits w : Nat) : State :=
  match tableCode nbits w with
  | none => s
  | some (p, code) => s.place p code

end Sys2Proof.Machine
end

