-- ==== Sys2Proof/Machine/Ports.lean ====
section
/-! DEFINITION. The port binding of R42 to R47 and R160: the same core behind three valid/ready channels, one rising edge of `clk`
at a time. It adds pin names and a handshake and no behaviour (D1). Log 18. -/

namespace Sys2Proof.Machine

/-- The levels of the input pins at a rising edge (R42 to R45, R160). -/
structure PinsIn where
  rst      : Bool
  cmdValid : Bool
  cmd      : BitVec 2
  inValid  : Bool
  inEoi    : Bool
  inData   : Byte
  outReady : Bool
  deriving DecidableEq, Repr

/-- The core behind the ports, with the output of its last step that is still on its way (R44, R46). -/
structure Ports where
  /-- The core after its last step; `core.mem.sink` holds what the sink has accepted. -/
  core  : State
  /-- The bytes of that step's output the sink has not accepted yet, first byte first. -/
  pend  : List Byte
  /-- `STATUS` before that step. -/
  shown : BitVec 4
  deriving DecidableEq, Repr

/-- The abstract state a port state stands for: every byte of the last step appended (R46). -/
def Ports.abs (p : Ports) : State := p.core.outWrite p.pend

/-- `out_valid` (R44). -/
def Ports.outValid (p : Ports) : Bool := !p.pend.isEmpty

/-- `out_data` while `out_valid` is 1 (R44); the spec gives it no level otherwise. -/
def Ports.outData (p : Ports) : Option Byte := p.pend.head?

/-- `cmd_ready` (R45): not before the last step's output is accepted (R39 item 5; log 21 for the tag byte of a command). -/
def Ports.cmdReady (p : Ports) : Bool := p.pend.isEmpty && p.core.cmdReady

/-- `in_ready` (R43). -/
def Ports.inReady (p : Ports) : Bool :=
  p.pend.isEmpty && p.core.busy && !(p.core.phase == .decBFirst && p.core.laValid)

/-- `status` (R20, R45): while output is pending, what it was before the step that writes it: the block transfers all of a step's
output "and only then changes STATUS" (R46), a command's step included (log 21). -/
def Ports.status (p : Ports) : BitVec 4 :=
  if p.pend.isEmpty then p.core.status else p.shown

/-- The core with one more symbol delivered (R43): `in_data` is ignored beside `in_eoi = 1`. -/
def State.deliver (s : State) (eoi : Bool) (data : Byte) : State :=
  { s with mem := { s.mem with
      src := if eoi then s.mem.src.take s.mem.ipos else s.mem.src.take s.mem.ipos ++ [data]
      ends := eoi } }

/-- One step of the core with its output held back for the output channel (R46). -/
def Ports.advance (p : Ports) (s : State) : Ports :=
  match step s with
  | .next t => ⟨{ t with mem := { t.mem with sink := s.mem.sink } }, t.mem.sink.drop s.mem.sink.length, s.status⟩
  | .fault _ => p
  | .refused _ => p

/-- One rising edge of `clk`: reset before everything, and what was offered and not accepted is not written (R160, R161); then
the output of the last step, byte by byte; then the next command, the pushed-back byte, or the next symbol (R43, R46). -/
def Ports.edge (i : PinsIn) (p : Ports) : Ports :=
  if i.rst then ⟨p.core.applyReset, [], p.core.applyReset.status⟩
  else match p.pend with
    | b :: l => if i.outReady then ⟨p.core.outWrite [b], l, p.shown⟩ else p
    | [] =>
      if p.core.cmdReady then
        if i.cmdValid then p.advance (p.core.withHost [.command i.cmd (some ⟨[], false⟩)]) else p
      else if p.core.phase = .decBFirst ∧ p.core.laValid = true then p.advance p.core
      else if i.inValid then p.advance (p.core.deliver i.inEoi i.inData)
      else p

end Sys2Proof.Machine
end

