-- ==== Sys2Proof/Machine/Streams.lean ====
section
/-! DEFINITION. The whole-stream functions of R120 to R124: what an operation computes, apart from how the block computes it. -/

namespace Sys2Proof.Machine

/-- `maxruns(S)` (R120): the maximal runs, lengths unbounded. -/
def maxruns : List Byte → List (Byte × Nat)
  | [] => []
  | b :: l =>
    match maxruns l with
    | [] => [(b, 1)]
    | (v, n) :: r => if b = v then (v, n + 1) :: r else (b, 1) :: (v, n) :: r

/-- The pairs one maximal run is reported as (R77, R121). -/
def chunkRun (r : Byte × Nat) : List (Byte × Nat) :=
  List.replicate (r.2 / 255) (r.1, 255) ++ (if r.2 % 255 = 0 then [] else [(r.1, r.2 % 255)])

/-- `chunks(S)` (R121). -/
def chunks (l : List Byte) : List (Byte × Nat) := (maxruns l).flatMap chunkRun

/-- The token of a pair, by the formulas of R122 and R123. -/
def pairBytes : Method → Byte × Nat → List Byte
  | .A, (v, n) => [BitVec.ofNat 8 n, v]
  | .B, (v, n) => if n = 1 then [v] else [v, v, BitVec.ofNat 8 n]

/-- The payload of a container: the tokens of `chunks(S)` (R122, R123). -/
def payload (m : Method) (l : List Byte) : List Byte := (chunks l).flatMap (pairBytes m)

/-- `encode(S, m)` (R122, R123). -/
def encodeStream (m : Method) (l : List Byte) : List Byte := tagByte m :: payload m l

/-- How an operation ends (R28). -/
inductive Result where
  | done
  | error (k : ErrorKind)
  deriving DecidableEq, Repr

/-- Bytes written before an outcome's own. -/
def after (l : List Byte) (o : Result × List Byte) : Result × List Byte := (o.1, l ++ o.2)

/-- `decA(P)` (R124). -/
def decA : List Byte → Result × List Byte
  | [] => (.done, [])
  | [_] => (.error .malformedStream, [])
  | c :: v :: l => after (rep c.toNat v) (decA l)

/-- `decB(P)` (R101, R124). -/
def decB : List Byte → Result × List Byte
  | [] => (.done, [])
  | [v] => (.done, [v])
  | v :: w :: l =>
    if w = v then
      match l with
      | [] => (.error .malformedStream, [])
      | c :: l' => after (rep c.toNat v) (decB l')
    else after [v] (decB (w :: l))
termination_by structural l => l

/-- A payload without its first token; itself if no whole token opens it (R53). -/
def dropToken (m : Method) (l : List Byte) : List Byte :=
  match splitToken m l with
  | .ok (_, r) => r
  | .error _ => l

/-- `decode(T)` (R124). -/
def decodeStream : List Byte → Result × List Byte
  | [] => (.error Config.emptyDecodeErr, [])
  | t :: p =>
    if t = Config.tagA then decA p
    else if t = Config.tagB then decB p
    else (.error .unknownMethod, [])

end Sys2Proof.Machine
end

