-- ==== Sys2Proof/Safety.lean ====
section
/-! DEFINITION. The terms claims are stated in: the outcome of an operation (R28), the invariants of R23, which registers hold a
value (R11, R24), and the measure of R134. -/

namespace Sys2Proof.Machine

/-- What this operation has written so far (R28). -/
def State.written (s : State) : List Byte := s.mem.sink.drop s.mem.base

/-- The outcome of an operation (R28). -/
structure OpOutcome where
  result   : Result
  written  : List Byte
  consumed : Nat
  eoi      : Bool
  deriving DecidableEq, Repr

/-- The outcome, once there is one: an operation "that has not reached DONE or ERROR has no outcome" (R28). -/
def State.outcome (s : State) : Option OpOutcome :=
  match s.phase, s.err with
  | .done, _ => some ⟨.done, s.written, s.mem.ipos, s.mem.eoiTaken⟩
  | .error, .unknownMethod => some ⟨.error .unknownMethod, s.written, s.mem.ipos, s.mem.eoiTaken⟩
  | .error, .malformedStream => some ⟨.error .malformedStream, s.written, s.mem.ipos, s.mem.eoiTaken⟩
  | _, _ => none

/-- R23, items 1 to 4 and 6, and the well-formedness of the streams (R22). -/
structure State.Inv (s : State) : Prop where
  openRun    : s.runOpen = true → s.phase = .encScan ∧ 1 ≤ s.runLen.toNat
  pushback   : s.laValid = true → s.phase = .decBFirst
  errIff     : s.err ≠ .none ↔ s.phase = .error
  eoiEnds    : s.mem.eoiTaken = true → s.phase = .done ∨ s.phase = .error
  streams    : s.mem.wf

/-- The run the detector has read and not reported yet (R14, R78). -/
def State.openRunBytes (s : State) : List Byte :=
  if s.runOpen then rep s.runLen.toNat s.cur else []

/-- What an operation has written, followed by what the whole-stream functions give for the bytes it holds and has not read, is
what they give for its whole input (R23 item 5, R78, R136, R148). -/
def State.Progress (s : State) : Prop :=
  match s.phase with
  | .idle => True
  | .encScan =>
    encodeStream s.method s.mem.src = s.written ++ payload s.method (s.openRunBytes ++ s.mem.rest)
  | .decTag => s.mem.ipos = 0 ∧ s.written = []
  | .decACnt => decodeStream s.mem.src = after s.written (decA s.mem.rest)
  | .decAVal => decodeStream s.mem.src = after s.written (decA (s.cnt :: s.mem.rest))
  | .decBFirst => decodeStream s.mem.src = after s.written (decB s.lookahead)
  | .decBSecond => decodeStream s.mem.src = after s.written (decB (s.b1 :: s.mem.rest))
  | .decBCnt => decodeStream s.mem.src = after s.written (decB (s.b1 :: s.b1 :: s.mem.rest))
  | .done => decodeStream s.mem.src = (.done, s.written) ∨ ∃ m, encodeStream m s.mem.src = s.written
  | .error => ∃ k, s.err = errOf k ∧ decodeStream s.mem.src = (.error k, s.written)

/-- The two states agree on everything but registers that hold no value in their phase (R11, R24). -/
structure State.SameLive (s t : State) : Prop where
  phase      : s.phase = t.phase
  err        : s.err = t.err
  runOpen    : s.runOpen = t.runOpen
  laValid    : s.laValid = t.laValid
  mem        : s.mem = t.mem
  host       : s.host = t.host
  tokenGrain : s.tokenGrain = t.tokenGrain
  method     : s.busy = true → s.phase ≠ .decTag → s.method = t.method
  cur        : s.runOpen = true → s.cur = t.cur
  runLen     : s.runOpen = true → s.runLen = t.runLen
  cnt        : s.phase = .decAVal → s.cnt = t.cnt
  b1         : s.phase = .decBSecond ∨ s.phase = .decBCnt → s.b1 = t.b1
  laByte     : s.laValid = true → s.laByte = t.laByte

/-- The measure of R134. -/
def State.measure (s : State) : Nat :=
  2 * (s.mem.src.length - s.mem.ipos) + 2 * (1 - s.mem.eoiTaken.toNat) + s.laValid.toNat

/-- While output is pending the ports still show the step before (R46): an operation that runs, or, for the tag byte of an encode
command that has just been taken, the state the command was taken in (log 21). -/
def Ports.Inv (p : Ports) : Prop :=
  p.pend ≠ [] → p.shown.getLsbD 0 = true ∨ (p.core.phase = .encScan ∧ p.pend = [tagByte p.core.method])

/-- A whole token stands at a token boundary, and `i` is its instruction (R52, R53). A lone byte is a `B.LIT` only once the end of
input or a second byte is there to tell it from a run marker. -/
def State.WholeToken (s : State) (i : Instr) : Prop :=
  (s.phase = .decACnt ∧ ∃ r, splitToken .A (s.mem.src.drop s.mem.ipos) = .ok (i, r)) ∨
  (s.phase = .decBFirst ∧ (s.mem.ends = true ∨ 2 ≤ s.lookahead.length) ∧ ∃ r, splitToken .B s.lookahead = .ok (i, r))

/-- A host that does nothing but let the core step (R134: no command and no reset is due). -/
def Quiet (l : List HostEvent) : Prop := ∀ e ∈ l, e = .wait

end Sys2Proof.Machine
end

