-- ==== Sys2Proof/Certificates/Slice0/Obligations.lean ====
section
/-! DEFINITION. The statements about the model. A docstring names the rule a statement formalises, and the log entry where a
clause of it is the model's choice. Registers a rule does not assign keep what they had (R8); in phases where R11 lets such a
register hold no value, that it keeps its bits is log 4. -/

open Sys2Proof Sys2Proof.Machine

/-! ## Encodings -/

/-- The encoder and the decoder agree on all 26 rows (R52, R53, R57, R58, R62, R63): wherever a row applies, its code decodes
to it, whatever its operands. -/
def Obligations.DecodeOfEncodeIsIdentity : Prop :=
  ∀ (c : Ctx) (i : Instr), i.wf = true → admits c i = true → decode c (encode i) = .ok i

/-- The transition map is complete and unambiguous (R62): a phase that reads has exactly one row for each symbol, the one whose
condition holds, and a phase that does not read has none. -/
def Obligations.TransitionMapHasExactlyOneRow : Prop :=
  (∀ (c : Ctx) (x : Symbol) (i : Instr),
    decodeSymbol c x = .ok i ↔ (i.symbol? = some x ∧ i.wf = true ∧ admits c i = true)) ∧
  (∀ (c : Ctx) (x : Symbol), readKind c.phase ≠ .nothing → ∃ i, decodeSymbol c x = .ok i) ∧
  (∀ (c : Ctx) (x : Symbol), readKind c.phase = .nothing → decodeSymbol c x = .error .phaseReadsNothing)

/-- Words written out from R51, R52, R53, R57 and R58 decode to the instructions they stand for. -/
def Obligations.SampleWordsDecode : Prop :=
  (∀ c : Ctx, decode c (.cmd 0b00#2) = .ok .encA ∧ decode c (.cmd 0b01#2) = .ok .encB ∧
    decode c (.cmd 0b10#2) = .ok .dec ∧ decode c (.cmd 0b11#2) = .ok .dec) ∧
  decode ⟨.decTag, false, 0, 0, 0⟩ (.symbol 0b000100001#9) = .ok .tagA ∧
  decode ⟨.decTag, false, 0, 0, 0⟩ (.symbol 0b010001010#9) = .ok .tagB ∧
  decode ⟨.decTag, false, 0, 0, 0⟩ (.symbol 0b000100000#9) = .ok (.tagIll 0x20) ∧
  decode ⟨.encScan, false, 0, 0, 0⟩ (.symbol 0b001000001#9) = .ok (.scanFirst 0x41) ∧
  decode ⟨.encScan, true, 0x41, 254, 0⟩ (.symbol 0b001000001#9) = .ok (.scanExtend 0x41) ∧
  decode ⟨.encScan, true, 0x41, 255, 0⟩ (.symbol 0b001000001#9) = .ok (.scanCap 0x41) ∧
  decode ⟨.encScan, true, 0x40, 255, 0⟩ (.symbol 0b001000001#9) = .ok (.scanBreak 0x41) ∧
  decode ⟨.encScan, true, 0x40, 255, 0⟩ (.symbol 0b101000001#9) = .ok .scanEnd ∧
  decode ⟨.decACnt, false, 0, 0, 0⟩ (.symbol 0b000100001#9) = .ok (.daCount 0x21) ∧
  decode ⟨.decAVal, false, 0, 0, 0⟩ (.symbol 0b100000000#9) = .ok .daTrunc ∧
  decode ⟨.decBSecond, false, 0, 0, 0x41⟩ (.symbol 0b001000001#9) = .ok (.dbPair 0x41) ∧
  decode ⟨.decBSecond, false, 0, 0, 0x42⟩ (.symbol 0b001000001#9) = .ok (.dbLit 0x41) ∧
  decode ⟨.decACnt, false, 0, 0, 0⟩ (.token [0x0C, 0x57]) = .ok (.aPair 12 0x57) ∧
  decode ⟨.decBFirst, false, 0, 0, 0⟩ (.token [0x42]) = .ok (.bLit 0x42) ∧
  decode ⟨.decBFirst, false, 0, 0, 0⟩ (.token [0x57, 0x57, 0x0C]) = .ok (.bRun 0x57 12)

/-- R57: the input symbol is a byte where `in_eoi = 0`, and `EOI` whatever the data bits are where `in_eoi = 1`. R51: in phase
`DEC_TAG` all eight bits of the byte are compared; two values are defined tags and the other 254 are not. -/
def Obligations.SymbolsAndTagsAreTotal : Prop :=
  (∀ b d : Byte, symbolOfWord (0#1 ++ b) = .byte b ∧ symbolOfWord (1#1 ++ d) = .eoi) ∧
  (∀ (c : Ctx) (t : Byte), c.phase = .decTag →
    decode c (.symbol (0#1 ++ t)) =
      .ok (if t = 0x21#8 then .tagA else if t = 0x8A#8 then .tagB else .tagIll t))

/-- R52, R53: the two token grammars. A Method-A token is two bytes, count first; a Method-B token is told from its first two
bytes, greedily from the left, and a lone byte is a literal. -/
def Obligations.TokenisationIsGreedy : Prop :=
  (∀ (c v : Byte) (l : List Byte), splitToken .A (c :: v :: l) = .ok (.aPair c v, l)) ∧
  (∀ c : Byte, splitToken .A [c] = .error .halfPair) ∧
  (∀ (v w : Byte) (l : List Byte), w ≠ v → splitToken .B (v :: w :: l) = .ok (.bLit v, w :: l)) ∧
  (∀ (v c : Byte) (l : List Byte), splitToken .B (v :: v :: c :: l) = .ok (.bRun v c, l)) ∧
  (∀ v : Byte, splitToken .B [v] = .ok (.bLit v, []) ∧ splitToken .B [v, v] = .error .cutRun) ∧
  (∀ m : Method, splitToken m [] = .error .emptyPayload)

/-! ## Primitives -/

/-- R31, R32: `InRead` returns the next byte of `IN` and moves the cursor past it; at the end of an `IN` that `EOI` follows it
returns `EOI`, and then again and again without changing anything more. -/
def Obligations.InReadTakesNextByteOrEoi : Prop :=
  (∀ (s : State) (b : Byte), s.mem.src[s.mem.ipos]? = some b →
    s.inRead = some (.byte b, { s with mem := { s.mem with ipos := s.mem.ipos + 1 } })) ∧
  (∀ s : State, s.mem.src[s.mem.ipos]? = none → s.mem.ends = true →
    s.inRead = some (.eoi, { s with mem := { s.mem with eoiTaken := true } })) ∧
  (∀ s t : State, s.inRead = some (.eoi, t) → t.inRead = some (.eoi, t))

/-- R33: `DecRead` takes the pushed-back byte if there is one, else it is `InRead`; `Unread(b)` puts `b` where the next
`DecRead` returns it, and the source is not touched. -/
def Obligations.PushbackReturnsTheByteFirst : Prop :=
  (∀ s : State, s.laValid = true → s.decRead = some (.byte s.laByte, { s with laValid := false })) ∧
  (∀ s : State, s.laValid = false → s.decRead = s.inRead) ∧
  (∀ (s : State) (b : Byte), s.laValid = false →
    ∃ t, s.unread b = .next t ∧ t.laValid = true ∧ t.laByte = b ∧ t.mem = s.mem ∧
      t.decRead = some (.byte b, { s with laByte := b }))

/-- R34, R39 (items 1 and 2): a step only appends to the sink, and within an operation it only moves the source's cursor
forward, by at most one in symbol grain (R21), without changing the input. That it moves by up to three, a whole token, in token grain
is the model's choice (log 14). -/
def Obligations.StreamsOnlyGoForward : Prop :=
  ∀ s t : State, step s = .next t →
    (∃ l, t.mem.sink = s.mem.sink ++ l) ∧
    ((∀ w o l, s.host = .command w o :: l → s.cmdReady = false) →
      t.mem.src = s.mem.src ∧ t.mem.ends = s.mem.ends ∧ s.mem.ipos ≤ t.mem.ipos ∧ t.mem.ipos ≤ s.mem.ipos + 3 ∧
      (s.tokenGrain = false → t.mem.ipos ≤ s.mem.ipos + 1))

/-! ## Commands -/

/-- R105, R106, R107: an encode command in `IDLE`, `DONE` or `ERROR` clears the flags and the error, begins a new input at the
first byte not delivered, writes its tag (`21`, `8A`) and starts the scan with its method. Nothing else changes. That the new
input is what is left of the old one is log 9; the mark where this operation's output begins is log 19. -/
def Obligations.EncodeCommandsWriteTheTag : Prop :=
  ∀ s : State, s.phase = .idle ∨ s.phase = .done ∨ s.phase = .error →
    exec .encA s = .next { s with
      phase := .encScan, method := .A, err := .none, runOpen := false, laValid := false
      mem := { s.mem with src := s.mem.src.drop s.mem.ipos, ipos := 0, eoiTaken := false,
                          sink := s.mem.sink ++ [0x21#8], base := s.mem.sink.length } } ∧
    exec .encB s = .next { s with
      phase := .encScan, method := .B, err := .none, runOpen := false, laValid := false
      mem := { s.mem with src := s.mem.src.drop s.mem.ipos, ipos := 0, eoiTaken := false,
                          sink := s.mem.sink ++ [0x8A#8], base := s.mem.sink.length } }

/-- R105, R108: `DEC` writes nothing and reads nothing; it waits for the tag. The register `method` keeps its bits (log 4). That
the new input is what is left of the old one is log 9; the mark where this operation's output begins is log 19. -/
def Obligations.DecAwaitsTheTag : Prop :=
  ∀ s : State, s.phase = .idle ∨ s.phase = .done ∨ s.phase = .error →
    exec .dec s = .next { s with
      phase := .decTag, err := .none, runOpen := false, laValid := false
      mem := { s.mem with src := s.mem.src.drop s.mem.ipos, ipos := 0, eoiTaken := false,
                          base := s.mem.sink.length } }

/-- R105, R168: while an operation runs a command has no effect; it stays presented, and the core steps as if it were not
there. -/
def Obligations.CommandWaitsWhileBusy : Prop :=
  ∀ s : State, s.phase ≠ .idle → s.phase ≠ .done → s.phase ≠ .error →
    exec .encA s = .next s ∧ exec .encB s = .next s ∧ exec .dec s = .next s ∧
    ∀ w o l t, s.host = .command w o :: l → step s = .next t →
      t.host = s.host ∧ step { s with host := [] } = .next { t with host := [] }

/-! ## The run-boundary detector -/

/-- R71: `SCAN.FIRST` opens the first run with the byte read; nothing is written. -/
def Obligations.ScanFirstOpensTheRun : Prop :=
  ∀ (s : State) (b : Byte), s.phase = .encScan → s.runOpen = false → s.mem.src[s.mem.ipos]? = some b →
    exec (.scanFirst b) s = .next { s with
      cur := b, runLen := 1, runOpen := true, mem := { s.mem with ipos := s.mem.ipos + 1 } }

/-- R72, R76: `SCAN.EXTEND` adds 1 to a run below the cap, without overflow; nothing is written. -/
def Obligations.ScanExtendLengthensTheRun : Prop :=
  ∀ (s : State) (b : Byte), s.phase = .encScan → s.runOpen = true → b = s.cur → s.runLen.toNat < 255 →
    s.mem.src[s.mem.ipos]? = some b →
    exec (.scanExtend b) s = .next { s with
      runLen := s.runLen + 1, mem := { s.mem with ipos := s.mem.ipos + 1 } } ∧
    (s.runLen + 1).toNat = s.runLen.toNat + 1

/-- R73: `SCAN.CAP` reports a run of 255 and starts a fresh run of the same byte. -/
def Obligations.ScanCapSplitsTheRun : Prop :=
  ∀ (s : State) (b : Byte), s.phase = .encScan → s.runOpen = true → b = s.cur → s.runLen = 255#8 →
    s.mem.src[s.mem.ipos]? = some b →
    exec (.scanCap b) s = .next { s with
      runLen := 1
      mem := { s.mem with ipos := s.mem.ipos + 1, sink := s.mem.sink ++ tok s.method s.cur 255#8 } }

/-- R74: `SCAN.BREAK` reports the run, whatever its length, and starts a new one with the byte read. -/
def Obligations.ScanBreakStartsANewRun : Prop :=
  ∀ (s : State) (b : Byte), s.phase = .encScan → s.runOpen = true → b ≠ s.cur →
    s.mem.src[s.mem.ipos]? = some b →
    exec (.scanBreak b) s = .next { s with
      cur := b, runLen := 1
      mem := { s.mem with ipos := s.mem.ipos + 1, sink := s.mem.sink ++ tok s.method s.cur s.runLen } }

/-- R75: `SCAN.END` reports the open run, if there is one, and completes the encode. -/
def Obligations.ScanEndFlushesTheRun : Prop :=
  ∀ s : State, s.phase = .encScan → s.mem.src[s.mem.ipos]? = none → s.mem.ends = true →
    exec .scanEnd s = .next { s with
      runOpen := false, phase := .done
      mem := { s.mem with
        eoiTaken := true
        sink := s.mem.sink ++ (if s.runOpen = true then tok s.method s.cur s.runLen else []) } }

/-- R80, R90, R91: the tokens of the two encoders, for the lengths 1 to 255 a pair can have. -/
def Obligations.TokenOfAPair : Prop :=
  ∀ v n : Byte,
    (1 ≤ n.toNat → tok .A v n = [n, v]) ∧
    tok .B v 1 = [v] ∧
    (2 ≤ n.toNat → tok .B v n = [v, v, n])

/-! ## The tag dispatcher -/

/-- R109, R110: the two defined tags select the two decoders; the tag is consumed and not written. -/
def Obligations.TagSelectsTheDecoder : Prop :=
  ∀ s : State, s.phase = .decTag →
    (s.mem.src[s.mem.ipos]? = some 0x21#8 →
      exec .tagA s = .next { s with
        method := .A, phase := .decACnt, mem := { s.mem with ipos := s.mem.ipos + 1 } }) ∧
    (s.mem.src[s.mem.ipos]? = some 0x8A#8 →
      exec .tagB s = .next { s with
        method := .B, phase := .decBFirst, mem := { s.mem with ipos := s.mem.ipos + 1 } })

/-- R111, R147: any other first byte raises `UnknownMethod`; one byte is consumed and nothing is written. -/
def Obligations.UnknownTagRaises : Prop :=
  ∀ (s : State) (t : Byte), s.phase = .decTag → t ≠ 0x21#8 → t ≠ 0x8A#8 → s.mem.src[s.mem.ipos]? = some t →
    exec (.tagIll t) s = .next { s with
      err := .unknownMethod, phase := .error, mem := { s.mem with ipos := s.mem.ipos + 1 } }

/-- R112: an input without a byte raises an error of the kind `EMPTY_DECODE_ERR`, whichever of the two it is (log 5). -/
def Obligations.MissingTagRaises : Prop :=
  ∀ s : State, s.phase = .decTag → s.mem.src[s.mem.ipos]? = none → s.mem.ends = true →
    exec .tagEoi s = .next { s with
      err := errOf Config.emptyDecodeErr, phase := .error, mem := { s.mem with eoiTaken := true } } ∧
    (errOf Config.emptyDecodeErr = .unknownMethod ∨ errOf Config.emptyDecodeErr = .malformedStream)

/-! ## The Method-A decoder -/

/-- R81: `DA.COUNT` latches any byte, 0 included, as the count. -/
def Obligations.DaCountLatchesTheCount : Prop :=
  ∀ (s : State) (c : Byte), s.phase = .decACnt → s.mem.src[s.mem.ipos]? = some c →
    exec (.daCount c) s = .next { s with
      cnt := c, phase := .decAVal, mem := { s.mem with ipos := s.mem.ipos + 1 } }

/-- R82: `DA.VALUE` writes `cnt` copies of the byte read. -/
def Obligations.DaValueExpandsThePair : Prop :=
  ∀ (s : State) (v : Byte), s.phase = .decAVal → s.mem.src[s.mem.ipos]? = some v →
    exec (.daValue v) s = .next { s with
      phase := .decACnt
      mem := { s.mem with
        ipos := s.mem.ipos + 1, sink := s.mem.sink ++ List.replicate s.cnt.toNat v } }

/-- R83, R96: end of input at a token boundary completes a decode of either method. -/
def Obligations.EndAtTokenBoundaryCompletes : Prop :=
  (∀ s : State, s.phase = .decACnt → s.mem.src[s.mem.ipos]? = none → s.mem.ends = true →
    exec .daEnd s = .next { s with phase := .done, mem := { s.mem with eoiTaken := true } }) ∧
  (∀ s : State, s.phase = .decBFirst → s.laValid = false → s.mem.src[s.mem.ipos]? = none → s.mem.ends = true →
    exec .dbEnd0 s = .next { s with phase := .done, mem := { s.mem with eoiTaken := true } })

/-- R84, R98, R147: end of input inside a token raises `MalformedStream` and writes nothing. -/
def Obligations.TruncationRaises : Prop :=
  (∀ s : State, s.phase = .decAVal → s.mem.src[s.mem.ipos]? = none → s.mem.ends = true →
    exec .daTrunc s = .next { s with
      err := .malformedStream, phase := .error, mem := { s.mem with eoiTaken := true } }) ∧
  (∀ s : State, s.phase = .decBCnt → s.laValid = false → s.mem.src[s.mem.ipos]? = none → s.mem.ends = true →
    exec .dbTrunc s = .next { s with
      err := .malformedStream, phase := .error, mem := { s.mem with eoiTaken := true } })

/-! ## The Method-B decoder

A premise `s.decRead = some (x, t)` covers both forms of the read, the pushed-back byte and the source (R33); `t` differs from
`s` in the pushback flag or the source's cursor only (`PushbackReturnsTheByteFirst`, `InReadTakesNextByteOrEoi`). -/

/-- R92: `DB.FIRST` latches the first byte of a token, from the buffer without touching the source, or from the source. -/
def Obligations.DbFirstLatchesTheByte : Prop :=
  (∀ s : State, s.phase = .decBFirst → s.laValid = true →
    exec (.dbFirst s.laByte) s = .next { s with b1 := s.laByte, laValid := false, phase := .decBSecond }) ∧
  (∀ (s : State) (b : Byte), s.phase = .decBFirst → s.laValid = false → s.mem.src[s.mem.ipos]? = some b →
    exec (.dbFirst b) s = .next { s with
      b1 := b, phase := .decBSecond, mem := { s.mem with ipos := s.mem.ipos + 1 } })

/-- R93: `DB.LIT` writes the first byte and pushes the second back. -/
def Obligations.DbLitWritesAndPushesBack : Prop :=
  ∀ (s t : State) (b : Byte), s.phase = .decBSecond → b ≠ s.b1 → s.decRead = some (.byte b, t) →
    exec (.dbLit b) s = .next { t with
      phase := .decBFirst, laByte := b, laValid := true, mem := { t.mem with sink := t.mem.sink ++ [s.b1] } } ∧
    t.mem.sink = s.mem.sink

/-- R94: `DB.PAIR` recognises the run marker and writes nothing. -/
def Obligations.DbPairAwaitsTheCount : Prop :=
  ∀ (s t : State) (b : Byte), s.phase = .decBSecond → b = s.b1 → s.decRead = some (.byte b, t) →
    exec (.dbPair b) s = .next { t with phase := .decBCnt } ∧ t.b1 = s.b1 ∧ t.mem.sink = s.mem.sink

/-- R95, R99, R100: `DB.COUNT` writes as many copies as the byte read says, one for 1 and none for 0. -/
def Obligations.DbCountExpandsTheRun : Prop :=
  ∀ (s t : State) (c : Byte), s.phase = .decBCnt → s.decRead = some (.byte c, t) →
    exec (.dbCount c) s = .next { t with
      phase := .decBFirst, mem := { t.mem with sink := t.mem.sink ++ List.replicate c.toNat s.b1 } } ∧
    t.mem.sink = s.mem.sink

/-- R97: `DB.END1` writes the final literal and completes the decode. -/
def Obligations.DbEnd1WritesTheLastLiteral : Prop :=
  ∀ s : State, s.phase = .decBSecond → s.laValid = false → s.mem.src[s.mem.ipos]? = none → s.mem.ends = true →
    exec .dbEnd1 s = .next { s with
      phase := .done, mem := { s.mem with eoiTaken := true, sink := s.mem.sink ++ [s.b1] } }

/-! ## Tokens -/

/-- R52, R81, R82: an `A.PAIR` at a pair boundary writes `count` copies of `value` and takes two bytes; with any other bytes
ahead, or elsewhere, the row does not apply (log 12). -/
def Obligations.PairTokenExpands : Prop :=
  ∀ (s : State) (c v : Byte),
    (∀ l, s.phase = .decACnt → s.mem.src.drop s.mem.ipos = c :: v :: l →
      exec (.aPair c v) s = .next { s with
        cnt := c
        mem := { s.mem with
          ipos := s.mem.ipos + 2, sink := s.mem.sink ++ List.replicate c.toNat v } }) ∧
    ((s.phase ≠ .decACnt ∨ ¬ ∃ l, s.mem.src.drop s.mem.ipos = c :: v :: l) →
      exec (.aPair c v) s = .refused .notSelected)

/-- R53, R92, R93, R97: a `B.LIT` at a token boundary writes its value once, whether that is the pushed-back byte or the source's
next. A different byte after it is read and pushed back; at the end of input the decode is complete. -/
def Obligations.LiteralTokenWritesOnce : Prop :=
  (∀ (s : State) (v : Byte), s.phase = .decBFirst → s.laValid = false →
    (∀ w l, s.mem.src.drop s.mem.ipos = v :: w :: l → w ≠ v →
      exec (.bLit v) s = .next { s with
        b1 := v, laByte := w, laValid := true
        mem := { s.mem with ipos := s.mem.ipos + 2, sink := s.mem.sink ++ [v] } }) ∧
    (s.mem.src.drop s.mem.ipos = [v] → s.mem.ends = true →
      exec (.bLit v) s = .next { s with
        b1 := v, phase := .done
        mem := { s.mem with ipos := s.mem.ipos + 1, eoiTaken := true, sink := s.mem.sink ++ [v] } })) ∧
  (∀ s : State, s.phase = .decBFirst → s.laValid = true →
    (∀ w l, s.mem.src.drop s.mem.ipos = w :: l → w ≠ s.laByte →
      exec (.bLit s.laByte) s = .next { s with
        b1 := s.laByte, laByte := w
        mem := { s.mem with ipos := s.mem.ipos + 1, sink := s.mem.sink ++ [s.laByte] } }) ∧
    (s.mem.src.drop s.mem.ipos = [] → s.mem.ends = true →
      exec (.bLit s.laByte) s = .next { s with
        b1 := s.laByte, laValid := false, phase := .done
        mem := { s.mem with eoiTaken := true, sink := s.mem.sink ++ [s.laByte] } }))

/-- R53, R92, R94, R95: a `B.RUN` at a token boundary writes `count` copies of `value`, whether its first byte is in the buffer
or with the source. -/
def Obligations.RunTokenExpands : Prop :=
  ∀ (s : State) (v c : Byte) (l : List Byte), s.phase = .decBFirst →
    (s.laValid = false → s.mem.src.drop s.mem.ipos = v :: v :: c :: l →
      exec (.bRun v c) s = .next { s with
        b1 := v
        mem := { s.mem with
          ipos := s.mem.ipos + 3, sink := s.mem.sink ++ List.replicate c.toNat v } }) ∧
    (s.laValid = true → v = s.laByte → s.mem.src.drop s.mem.ipos = v :: c :: l →
      exec (.bRun v c) s = .next { s with
        b1 := v, laValid := false
        mem := { s.mem with
          ipos := s.mem.ipos + 2, sink := s.mem.sink ++ List.replicate c.toNat v } })

/-- R101: one step in token grain is one, two or three steps of one symbol each, on any state (log 14). -/
def Obligations.TokenStepIsSymbolSteps : Prop :=
  ∀ s t : State, s.host = [] → s.tokenGrain = true → step s = .next t →
    ∃ k, 1 ≤ k ∧ k ≤ 3 ∧
      Host.Core.run Sys2Proof.core k { s with tokenGrain := false } = .next { t with tokenGrain := false }

/-! ## Where a row applies -/

/-- R62, log 12: a transition gives a next state exactly where its row is selected, and is refused everywhere else. -/
def Obligations.TransitionRunsExactlyWhereSelected : Prop :=
  ∀ (s : State) (i : Instr) (x : Symbol), i.symbol? = some x →
    ((i.wf = true ∧ admits s.ctx i = true ∧ s.peek = some x → ∃ t, exec i s = .next t) ∧
     (¬(i.wf = true ∧ admits s.ctx i = true ∧ s.peek = some x) → exec i s = .refused .notSelected))

/-- Where the core has a step, R62 gives it one row, and no instruction ever pushes back into a full buffer (R23 item 2; that one
would be a fault is log 13). That `IDLE`, `DONE` and `ERROR`, where "the core has no step of its own" (R12), and a source that
pauses have a next state too, the same one, is the model's choice (log 8, log 10). -/
def Obligations.EveryStepGivesANextState : Prop :=
  (∀ s : State, ∃ t, step s = .next t) ∧ (∀ (i : Instr) (s : State) (r : Fault), exec i s ≠ .fault r)

/-! ## One step -/

/-- R62: with no act of the host due (none left, a wait, or a command held off while the core is busy), a step runs the one
transition the next symbol selects; where no symbol is to be had (`IDLE`, `DONE`, `ERROR`, R12; a source that pauses, log 10)
nothing but the host's wait passes (log 8). In token grain (log 14) that is so wherever no whole token stands at a boundary; where
one does, it is the token that is run. -/
def Obligations.StepRunsTheDecodedInstruction : Prop :=
  ∀ (s : State) (l : List HostEvent),
    (s.host = [] ∧ l = []) ∨ s.host = .wait :: l ∨
      (∃ w o r, s.host = .command w o :: r ∧ l = s.host ∧ s.cmdReady = false) →
    (s.tokenGrain = false ∨ (∀ i, ¬ s.WholeToken i) →
      (∀ x i, s.peek = some x → decode s.ctx (.symbol (wordOfSymbol x)) = .ok i →
        step s = exec i { s with host := l }) ∧
      (s.peek = none → step s = .next { s with host := l })) ∧
    (s.tokenGrain = true → ∀ i, s.WholeToken i → step s = exec i { s with host := l })

/-- R105: in `IDLE`, `DONE` and `ERROR` a step takes the command the host presents, decodes its word and runs it, with the source
at the stream the environment has attached (R163, log 9). -/
def Obligations.StepTakesThePresentedCommand : Prop :=
  ∀ (s : State) (w : BitVec 2) (l : List HostEvent) (i : Instr), s.cmdReady = true → decode s.ctx (.cmd w) = .ok i →
    (s.host = .command w none :: l → step s = exec i { s with host := l }) ∧
    (∀ bytes ends, s.host = .command w (some ⟨bytes, ends⟩) :: l →
      step s = exec i { s with
        host := l
        mem := { s.mem with src := bytes, ends := ends, ipos := 0, eoiTaken := false } })

/-- A word of the opcode table, placed for the next step, is what the next step decodes and runs (log 15, 16). -/
def Obligations.PlacedWordRuns : Prop :=
  ∀ (s : State) (nbits w : Nat) (i : Instr), decodeTableWord nbits w = some i →
    ∃ t, step (s.withFetchWord nbits w) = exec i t ∧ t = (s.withFetchWord nbits w).withHost [] ∧
      ∃ u, exec i t = .next u

/-- R160, R161, R25: reset takes precedence over every step, in every phase; the four registers with a reset value take it, what
the sink holds stays, the source stays where it was. That `eoi_taken` is cleared is log 11. -/
def Obligations.ResetAbortsAndKeepsTheStreams : Prop :=
  ∀ (s : State) (l : List HostEvent), s.host = .reset :: l →
    step s = .next { s with
      phase := .idle, err := .none, runOpen := false, laValid := false, host := l
      mem := { s.mem with eoiTaken := false } }

/-- R25: what reset leaves, in any state: the four registers with a reset value have it, `STATUS` is 0, the ports are idle, and
the streams are where they were. `State.reset` is such a state. The registers R25 leaves without a value are log 3. -/
def Obligations.ResetValues : Prop :=
  State.reset.applyReset = State.reset ∧
  ∀ s : State,
    s.applyReset.phase = .idle ∧ s.applyReset.err = .none ∧ s.applyReset.runOpen = false ∧ s.applyReset.laValid = false ∧
    s.applyReset.status = 0b0000#4 ∧
    (⟨s.applyReset, [], s.status⟩ : Ports).inReady = false ∧ (⟨s.applyReset, [], s.status⟩ : Ports).outValid = false ∧
    (⟨s.applyReset, [], s.status⟩ : Ports).cmdReady = true ∧
    s.applyReset.mem.src = s.mem.src ∧ s.applyReset.mem.ipos = s.mem.ipos ∧ s.applyReset.mem.sink = s.mem.sink

/-- R20, R59: the three fields of `STATUS`; and, wherever `err` and `phase` agree (R23 item 3), `st_err` shows `ERROR` and all
three fields are 0 in `IDLE` only. -/
def Obligations.StatusShowsPhaseAndError : Prop :=
  ∀ s : State,
    s.status.extractLsb' 2 2 =
      (match s.err with | .none => 0#2 | .unknownMethod => 1#2 | .malformedStream => 2#2) ∧
    (s.status.getLsbD 1 = true ↔ s.phase = .done) ∧
    (s.status.getLsbD 0 = true ↔ s.phase ≠ .idle ∧ s.phase ≠ .done ∧ s.phase ≠ .error) ∧
    ((s.err ≠ .none ↔ s.phase = .error) →
      (s.status.extractLsb' 2 2 ≠ 0#2 ↔ s.phase = .error) ∧ (s.status = 0#4 ↔ s.phase = .idle))

/-! ## Invariants -/

/-- The invariants hold after reset (R23, R22). -/
def Obligations.InvariantsHoldAtReset : Prop := State.reset.Inv ∧ State.reset.Progress

/-- R23 items 1 to 4 and 6, R22: every step of every state that meets them keeps them. -/
def Obligations.StepKeepsTheInvariant : Prop :=
  ∀ s t : State, s.Inv → step s = .next t → t.Inv

/-- R23 item 5, R78, R136, R148: at every step of an operation, what has been written is what the whole-stream functions give for
what has been read, and at its end it is what they give for the whole input. -/
def Obligations.StepKeepsProgress : Prop :=
  ∀ s t : State, s.Inv → s.Progress → step s = .next t → t.Progress

/-- R18, R150, R151: nothing but a command or reset leaves `ERROR` or changes anything in it, and `err` never passes from one
error kind to another. -/
def Obligations.ErrorIsLeftByCommandOrResetOnly : Prop :=
  ∀ s t : State, step s = .next t →
    (s.phase = .error → (∀ w o l, s.host ≠ .command w o :: l) → (∀ l, s.host ≠ .reset :: l) →
      t = { s with host := t.host }) ∧
    (s.Inv → s.err ≠ .none → t.err = s.err ∨ t.err = .none)

/-- R144, R147, R153: four transitions raise, always; the other nineteen, the commands and the completed tokens never do. A
raising transition writes nothing. -/
def Obligations.ExactlyFourTransitionsRaise : Prop :=
  ∀ (i : Instr) (s t : State), exec i s = .next t →
    (s.phase ≠ .error → (t.phase = .error ↔ (i = .tagEoi ∨ i = .daTrunc ∨ i = .dbTrunc ∨ ∃ b, i = .tagIll b))) ∧
    (s.phase ≠ .error → t.phase = .error → t.mem.sink = s.mem.sink ∧ t.err ≠ .none)

/-- R134: every transition on a symbol lowers the measure. -/
def Obligations.TransitionsLowerTheMeasure : Prop :=
  ∀ (i : Instr) (x : Symbol) (s t : State), s.Inv → i.symbol? = some x → exec i s = .next t → t.measure < s.measure

/-- R24, R26: no step reads a register that holds no value in its phase, so what it holds (log 3, 4) is unobservable. -/
def Obligations.ValuelessRegistersAreNeverRead : Prop :=
  ∀ s t s' t' : State, s.SameLive t → step s = .next s' → step t = .next t' → s'.SameLive t'

/-! ## Whole operations -/

/-- R120: `maxruns(S)` is the one list of pairs with positive lengths, no two adjacent bytes equal, that expands to `S`. -/
def Obligations.MaximalRunsAreUnique : Prop :=
  ∀ (l : List Byte) (ps : List (Byte × Nat)),
    ((ps.flatMap fun p => List.replicate p.2 p.1) = l ∧ (∀ p ∈ ps, 1 ≤ p.2) ∧
      (∀ (i : Nat) (p q : Byte × Nat), ps[i]? = some p → ps[i + 1]? = some q → p.1 ≠ q.1)) ↔ ps = maxruns l

/-- R70, R121: `chunks(S)` is the one list of pairs of lengths 1 to 255 that expands to `S` in which two adjacent pairs share a
byte only if the first is full. -/
def Obligations.ReportedPairsAreUnique : Prop :=
  ∀ (l : List Byte) (ps : List (Byte × Nat)),
    ((ps.flatMap fun p => List.replicate p.2 p.1) = l ∧ (∀ p ∈ ps, 1 ≤ p.2 ∧ p.2 ≤ 255) ∧
      (∀ (i : Nat) (p q : Byte × Nat), ps[i]? = some p → ps[i + 1]? = some q → p.1 = q.1 → p.2 = 255)) ↔
    ps = chunks l

/-- R125, R135: an encode of `n` bytes, from any state that accepts it and whatever ran before (R26), ends in `DONE` after one
command step and `n + 1` more, with `encode(S, m)` written, the input consumed and `EOI` taken; not a step earlier. That a source
left where it was (`none`) delivers its undelivered bytes and its `EOI` again is log 9, that the host's waits are steps is log 8. -/
def Obligations.MachineEncodes : Prop :=
  ∀ (m : Method) (w : BitVec 2) (l : List Byte) (s : State) (o : Option Stream) (h : List HostEvent),
    (m = .A ∧ w = 0b00#2) ∨ (m = .B ∧ w = 0b01#2) →
    s.cmdReady = true → s.host = .command w o :: h → Quiet h →
    (s.attach o).mem.rest = l → (s.attach o).mem.ends = true →
    (∃ u, Host.Core.run Sys2Proof.core (l.length + 1) s = .next u ∧ u.outcome = none) ∧
    ∃ t, Host.Core.run Sys2Proof.core (l.length + 2) s = .next t ∧
      t.outcome = some ⟨.done, encodeStream m l, l.length, true⟩ ∧
      t.mem.sink = s.mem.sink ++ encodeStream m l

/-- R125, R134: a decode of `n` bytes, from any state that accepts it, has ended after one command step and `2n + 2` more, and
stays ended, with the result and the bytes `decode(T)` gives; the input is consumed and `EOI` taken, except that an unknown tag
leaves all but the first byte. That a source left where it was (`none`) delivers its undelivered bytes and its `EOI` again is log 9;
that an ended machine goes on by standing still, and that the host's waits are steps, is log 8. -/
def Obligations.MachineDecodes : Prop :=
  ∀ (w : BitVec 2) (l : List Byte) (s : State) (o : Option Stream) (h : List HostEvent),
    w.getLsbD 1 = true → s.cmdReady = true → s.host = .command w o :: h → Quiet h →
    (s.attach o).mem.rest = l → (s.attach o).mem.ends = true →
    ∀ k, 2 * l.length + 3 ≤ k →
      ∃ t, Host.Core.run Sys2Proof.core k s = .next t ∧
        t.outcome = some (match l with
          | [] => ⟨(decodeStream l).1, (decodeStream l).2, 0, true⟩
          | b :: r =>
            if b = 0x21#8 ∨ b = 0x8A#8 then ⟨(decodeStream l).1, (decodeStream l).2, r.length + 1, true⟩
            else ⟨(decodeStream l).1, (decodeStream l).2, 1, false⟩) ∧
        t.mem.sink = s.mem.sink ++ (decodeStream l).2

/-- R126: decoding what either method encodes gives the input back. -/
def Obligations.RoundTrip : Prop :=
  ∀ (m : Method) (l : List Byte), decodeStream (encodeStream m l) = (.done, l)

/-- R127, R130: the first byte of a container is its tag; an empty input gives the tag alone, and the tag alone decodes to an
empty output. -/
def Obligations.FramingAndEmptyInput : Prop :=
  (∀ l : List Byte, (encodeStream .A l).head? = some 0x21#8 ∧ (encodeStream .B l).head? = some 0x8A#8) ∧
  encodeStream .A [] = [0x21#8] ∧ encodeStream .B [] = [0x8A#8] ∧
  decodeStream [0x21#8] = (.done, []) ∧ decodeStream [0x8A#8] = (.done, [])

/-- R77, R128: a maximal run of any length is cut after every 255th byte, and no pair of length 0 is produced; 255 bytes give
one token and 256 give two, under both methods. -/
def Obligations.RunsAreCutAt255 : Prop :=
  (∀ (v : Byte) (n : Nat), chunks (List.replicate n v) =
    List.replicate (n / 255) (v, 255) ++ (if n % 255 = 0 then [] else [(v, n % 255)])) ∧
  ∀ v : Byte,
    encodeStream .A (List.replicate 255 v) = [0x21, 0xFF, v] ∧
    encodeStream .A (List.replicate 256 v) = [0x21, 0xFF, v, 0x01, v] ∧
    encodeStream .B (List.replicate 255 v) = [0x8A, v, v, 0xFF] ∧
    encodeStream .B (List.replicate 256 v) = [0x8A, v, v, 0xFF, v]

/-- R129: Method-B leaves a sequence with no two adjacent equal bytes unchanged. -/
def Obligations.MethodBPassesThrough : Prop :=
  ∀ l : List Byte, (∀ (i : Nat) (a b : Byte), l[i]? = some a → l[i + 1]? = some b → a ≠ b) →
    encodeStream .B l = 0x8A#8 :: l

/-- R131: a Method-A payload of odd length, a Method-B payload whose greedy tokenisation ends in a cut run marker, and an unknown
first byte are rejected, each with its kind; the first two conditions are also the only ones (R86, R142). A doubled byte after
a canonical payload that does not end in it is such a cut marker; two equal bytes at the end alone are not. -/
def Obligations.MalformedInputIsRejected : Prop :=
  (∀ p : List Byte, (decodeStream (0x21#8 :: p)).1 = .error .malformedStream ↔ p.length % 2 = 1) ∧
  (∀ p : List Byte, (decodeStream (0x8A#8 :: p)).1 = .error .malformedStream ↔
    ∃ k v, (dropToken .B)^[k] p = [v, v]) ∧
  (∀ (l : List Byte) (v : Byte), l.getLast? ≠ some v →
    (decodeStream (encodeStream .B l ++ [v, v])).1 = .error .malformedStream) ∧
  decodeStream [0x8A, 0x41, 0x41, 0x41] = (.done, List.replicate 65 0x41) ∧
  (∀ (t : Byte) (p : List Byte), t ≠ 0x21#8 → t ≠ 0x8A#8 →
    decodeStream (t :: p) = (.error .unknownMethod, []))

/-! ## The ports -/

/-- R42, R43, R45, R46, D1: at a rising edge without reset, a command is taken where both its lines are 1, and the abstract machine
behind the ports makes exactly its step; a symbol is taken where both its lines are 1, and the machine makes exactly the step on
that symbol; with no output pending the pushed-back byte is taken without a transfer (an edge of its own, log 18); and where
none of the three holds, the abstract machine stands still. -/
def Obligations.PortEdgeIsOneAbstractStep : Prop :=
  ∀ (i : PinsIn) (p : Ports), i.rst = false → p.core.host = [] → p.core.tokenGrain = false →
    (p.cmdReady = true ∧ i.cmdValid = true →
      step (p.core.withHost [.command i.cmd (some ⟨[], false⟩)]) = .next (p.edge i).abs) ∧
    (p.inReady = true ∧ i.inValid = true →
      step (p.core.deliver i.inEoi i.inData) = .next (p.edge i).abs ∧
      (p.core.Inv →
        (p.core.deliver i.inEoi i.inData).peek = some (if i.inEoi = true then .eoi else .byte i.inData))) ∧
    (p.outValid = false ∧ p.core.phase = .decBFirst ∧ p.core.laValid = true →
      step p.core = .next (p.edge i).abs) ∧
    (¬(p.cmdReady = true ∧ i.cmdValid = true) ∧ ¬(p.inReady = true ∧ i.inValid = true) ∧
      ¬(p.outValid = false ∧ p.core.phase = .decBFirst ∧ p.core.laValid = true) → (p.edge i).abs = p.abs)

/-- R44, R46, R160, R161: the output leaves byte by byte, in order, one at each edge at which the sink is ready, and `STATUS` is
what it was before the step until all of it has left; at a reset edge nothing is transferred, and what was offered and not
accepted is not written (log 18, 21). -/
def Obligations.OutputIsTransferredInOrder : Prop :=
  ∀ (i : PinsIn) (p : Ports),
    (∀ b l, i.rst = false → p.pend = b :: l → p.outData = some b ∧
      (i.outReady = true → (p.edge i).pend = l ∧
        (p.edge i).core = { p.core with mem := { p.core.mem with sink := p.core.mem.sink ++ [b] } }) ∧
      (i.outReady = false → p.edge i = p)) ∧
    ((p.edge i).pend ≠ [] → (p.edge i).status = p.status) ∧
    (p.pend = [] → p.status = p.abs.status) ∧
    (i.rst = true → (p.edge i).pend = [] ∧ (p.edge i).core.mem.sink = p.core.mem.sink ∧
      (p.edge i).core.phase = .idle ∧ (p.edge i).status = 0b0000#4)

/-- R45, R47: while `STATUS` does not show busy, the block asks for no symbol, offers no byte and is ready for a command, but for
the tag byte of an encode command it has just taken; while it does, no command is taken. Every edge keeps the invariant this
rests on. That `out_valid` is 1 and `cmd_ready` 0 beside a `STATUS` not busy yet is log 21, the model's choice. -/
def Obligations.StreamsAreReleasedWhenNotBusy : Prop :=
  ∀ (i : PinsIn) (p : Ports), p.Inv →
    (p.edge i).Inv ∧
    (p.status.getLsbD 0 = false → p.inReady = false ∧
      ((p.outValid = false ∧ p.cmdReady = true) ∨
        (p.core.phase = .encScan ∧ p.pend = [tagByte p.core.method] ∧ p.cmdReady = false))) ∧
    (p.status.getLsbD 0 = true → p.cmdReady = false)
end

