-- ==== Sys2Proof/Laws/State.lean ====
section
/-! SUPPORT. What each shared update leaves and changes, field by field, so that no later proof unfolds a record update. -/

namespace Sys2Proof.Machine

variable (s : State)

/-! ### `outWrite` -/

@[simp] theorem State.outWrite_phase (l : List Byte) : (s.outWrite l).phase = s.phase := rfl
@[simp] theorem State.outWrite_method (l : List Byte) : (s.outWrite l).method = s.method := rfl
@[simp] theorem State.outWrite_err (l : List Byte) : (s.outWrite l).err = s.err := rfl
@[simp] theorem State.outWrite_runOpen (l : List Byte) : (s.outWrite l).runOpen = s.runOpen := rfl
@[simp] theorem State.outWrite_cur (l : List Byte) : (s.outWrite l).cur = s.cur := rfl
@[simp] theorem State.outWrite_runLen (l : List Byte) : (s.outWrite l).runLen = s.runLen := rfl
@[simp] theorem State.outWrite_cnt (l : List Byte) : (s.outWrite l).cnt = s.cnt := rfl
@[simp] theorem State.outWrite_b1 (l : List Byte) : (s.outWrite l).b1 = s.b1 := rfl
@[simp] theorem State.outWrite_laValid (l : List Byte) : (s.outWrite l).laValid = s.laValid := rfl
@[simp] theorem State.outWrite_laByte (l : List Byte) : (s.outWrite l).laByte = s.laByte := rfl
@[simp] theorem State.outWrite_mem (l : List Byte) : (s.outWrite l).mem = { s.mem with sink := s.mem.sink ++ l } := rfl
@[simp] theorem State.outWrite_host (l : List Byte) : (s.outWrite l).host = s.host := rfl
@[simp] theorem State.outWrite_tokenGrain (l : List Byte) : (s.outWrite l).tokenGrain = s.tokenGrain := rfl

/-! ### `raiseError` -/

@[simp] theorem State.raiseError_phase (k : ErrorKind) : (s.raiseError k).phase = .error := rfl
@[simp] theorem State.raiseError_method (k : ErrorKind) : (s.raiseError k).method = s.method := rfl
@[simp] theorem State.raiseError_err (k : ErrorKind) : (s.raiseError k).err = errOf k := rfl
@[simp] theorem State.raiseError_runOpen (k : ErrorKind) : (s.raiseError k).runOpen = s.runOpen := rfl
@[simp] theorem State.raiseError_cur (k : ErrorKind) : (s.raiseError k).cur = s.cur := rfl
@[simp] theorem State.raiseError_runLen (k : ErrorKind) : (s.raiseError k).runLen = s.runLen := rfl
@[simp] theorem State.raiseError_cnt (k : ErrorKind) : (s.raiseError k).cnt = s.cnt := rfl
@[simp] theorem State.raiseError_b1 (k : ErrorKind) : (s.raiseError k).b1 = s.b1 := rfl
@[simp] theorem State.raiseError_laValid (k : ErrorKind) : (s.raiseError k).laValid = s.laValid := rfl
@[simp] theorem State.raiseError_laByte (k : ErrorKind) : (s.raiseError k).laByte = s.laByte := rfl
@[simp] theorem State.raiseError_mem (k : ErrorKind) : (s.raiseError k).mem = s.mem := rfl
@[simp] theorem State.raiseError_host (k : ErrorKind) : (s.raiseError k).host = s.host := rfl
@[simp] theorem State.raiseError_tokenGrain (k : ErrorKind) : (s.raiseError k).tokenGrain = s.tokenGrain := rfl

/-! ### `accept` -/

@[simp] theorem State.accept_phase : (s.accept).phase = s.phase := rfl
@[simp] theorem State.accept_method : (s.accept).method = s.method := rfl
@[simp] theorem State.accept_err : (s.accept).err = .none := rfl
@[simp] theorem State.accept_runOpen : (s.accept).runOpen = false := rfl
@[simp] theorem State.accept_cur : (s.accept).cur = s.cur := rfl
@[simp] theorem State.accept_runLen : (s.accept).runLen = s.runLen := rfl
@[simp] theorem State.accept_cnt : (s.accept).cnt = s.cnt := rfl
@[simp] theorem State.accept_b1 : (s.accept).b1 = s.b1 := rfl
@[simp] theorem State.accept_laValid : (s.accept).laValid = false := rfl
@[simp] theorem State.accept_laByte : (s.accept).laByte = s.laByte := rfl
@[simp] theorem State.accept_mem : (s.accept).mem = { s.mem with src := s.mem.rest, ipos := 0, eoiTaken := false, base := s.mem.sink.length } := rfl
@[simp] theorem State.accept_host : (s.accept).host = s.host := rfl
@[simp] theorem State.accept_tokenGrain : (s.accept).tokenGrain = s.tokenGrain := rfl

/-! ### `applyReset` -/

@[simp] theorem State.applyReset_phase : (s.applyReset).phase = .idle := rfl
@[simp] theorem State.applyReset_method : (s.applyReset).method = s.method := rfl
@[simp] theorem State.applyReset_err : (s.applyReset).err = .none := rfl
@[simp] theorem State.applyReset_runOpen : (s.applyReset).runOpen = false := rfl
@[simp] theorem State.applyReset_cur : (s.applyReset).cur = s.cur := rfl
@[simp] theorem State.applyReset_runLen : (s.applyReset).runLen = s.runLen := rfl
@[simp] theorem State.applyReset_cnt : (s.applyReset).cnt = s.cnt := rfl
@[simp] theorem State.applyReset_b1 : (s.applyReset).b1 = s.b1 := rfl
@[simp] theorem State.applyReset_laValid : (s.applyReset).laValid = false := rfl
@[simp] theorem State.applyReset_laByte : (s.applyReset).laByte = s.laByte := rfl
@[simp] theorem State.applyReset_mem : (s.applyReset).mem = { s.mem with eoiTaken := false } := rfl
@[simp] theorem State.applyReset_host : (s.applyReset).host = s.host := rfl
@[simp] theorem State.applyReset_tokenGrain : (s.applyReset).tokenGrain = s.tokenGrain := rfl

/-! ### `withHost` -/

@[simp] theorem State.withHost_phase (l : List HostEvent) : (s.withHost l).phase = s.phase := rfl
@[simp] theorem State.withHost_method (l : List HostEvent) : (s.withHost l).method = s.method := rfl
@[simp] theorem State.withHost_err (l : List HostEvent) : (s.withHost l).err = s.err := rfl
@[simp] theorem State.withHost_runOpen (l : List HostEvent) : (s.withHost l).runOpen = s.runOpen := rfl
@[simp] theorem State.withHost_cur (l : List HostEvent) : (s.withHost l).cur = s.cur := rfl
@[simp] theorem State.withHost_runLen (l : List HostEvent) : (s.withHost l).runLen = s.runLen := rfl
@[simp] theorem State.withHost_cnt (l : List HostEvent) : (s.withHost l).cnt = s.cnt := rfl
@[simp] theorem State.withHost_b1 (l : List HostEvent) : (s.withHost l).b1 = s.b1 := rfl
@[simp] theorem State.withHost_laValid (l : List HostEvent) : (s.withHost l).laValid = s.laValid := rfl
@[simp] theorem State.withHost_laByte (l : List HostEvent) : (s.withHost l).laByte = s.laByte := rfl
@[simp] theorem State.withHost_mem (l : List HostEvent) : (s.withHost l).mem = s.mem := rfl
@[simp] theorem State.withHost_host (l : List HostEvent) : (s.withHost l).host = l := rfl
@[simp] theorem State.withHost_tokenGrain (l : List HostEvent) : (s.withHost l).tokenGrain = s.tokenGrain := rfl

/-! ### `attach` -/

@[simp] theorem State.attach_phase (o : Option Stream) : (s.attach o).phase = s.phase := by cases o <;> rfl
@[simp] theorem State.attach_method (o : Option Stream) : (s.attach o).method = s.method := by cases o <;> rfl
@[simp] theorem State.attach_err (o : Option Stream) : (s.attach o).err = s.err := by cases o <;> rfl
@[simp] theorem State.attach_runOpen (o : Option Stream) : (s.attach o).runOpen = s.runOpen := by cases o <;> rfl
@[simp] theorem State.attach_cur (o : Option Stream) : (s.attach o).cur = s.cur := by cases o <;> rfl
@[simp] theorem State.attach_runLen (o : Option Stream) : (s.attach o).runLen = s.runLen := by cases o <;> rfl
@[simp] theorem State.attach_cnt (o : Option Stream) : (s.attach o).cnt = s.cnt := by cases o <;> rfl
@[simp] theorem State.attach_b1 (o : Option Stream) : (s.attach o).b1 = s.b1 := by cases o <;> rfl
@[simp] theorem State.attach_laValid (o : Option Stream) : (s.attach o).laValid = s.laValid := by cases o <;> rfl
@[simp] theorem State.attach_laByte (o : Option Stream) : (s.attach o).laByte = s.laByte := by cases o <;> rfl
@[simp] theorem State.attach_host (o : Option Stream) : (s.attach o).host = s.host := by cases o <;> rfl
@[simp] theorem State.attach_tokenGrain (o : Option Stream) : (s.attach o).tokenGrain = s.tokenGrain := by cases o <;> rfl

@[simp] theorem State.attach_none : s.attach none = s := rfl

@[simp] theorem State.attach_some_mem (st : Stream) :
    (s.attach (some st)).mem = { s.mem with src := st.bytes, ends := st.ends, ipos := 0, eoiTaken := false } := rfl

/-! ### Readings of the state -/

@[simp] theorem State.outWrite_nil : s.outWrite [] = s := by simp [State.outWrite]

theorem State.outWrite_outWrite (l r : List Byte) : (s.outWrite l).outWrite r = s.outWrite (l ++ r) := by
  simp [State.outWrite, List.append_assoc]

@[simp] theorem State.ctx_phase : s.ctx.phase = s.phase := rfl
@[simp] theorem State.ctx_runOpen : s.ctx.runOpen = s.runOpen := rfl
@[simp] theorem State.ctx_cur : s.ctx.cur = s.cur := rfl
@[simp] theorem State.ctx_runLen : s.ctx.runLen = s.runLen := rfl
@[simp] theorem State.ctx_b1 : s.ctx.b1 = s.b1 := rfl

end Sys2Proof.Machine
end

