-- ==== Sys2Proof/Laws/Ops.lean ====
section
/-! SUPPORT. One lemma for each shared operation that says everything it can do; proofs cite these instead of unfolding. -/

namespace Sys2Proof.Machine

variable {s t : State} {x : Symbol}

/-! ## Reads -/

/-- R31: a read takes the next byte, or the end of an input that has one. -/
theorem inRead_cases (h : s.inRead = some (x, t)) :
    (∃ b, x = .byte b ∧ s.mem.src[s.mem.ipos]? = some b ∧
      t = { s with mem := { s.mem with ipos := s.mem.ipos + 1 } }) ∨
    (x = .eoi ∧ s.mem.src[s.mem.ipos]? = none ∧ s.mem.ends = true ∧
      t = { s with mem := { s.mem with eoiTaken := true } }) := by
  unfold State.inRead at h
  split at h
  · rename_i b hb
    obtain ⟨rfl, rfl⟩ := Prod.mk.inj (Option.some.inj h)
    exact .inl ⟨b, rfl, hb, rfl⟩
  · rename_i hn
    split at h
    · rename_i he
      obtain ⟨rfl, rfl⟩ := Prod.mk.inj (Option.some.inj h)
      exact .inr ⟨rfl, hn, he, rfl⟩
    · cases h

theorem inRead_byte {b : Byte} (h : s.mem.src[s.mem.ipos]? = some b) :
    s.inRead = some (.byte b, { s with mem := { s.mem with ipos := s.mem.ipos + 1 } }) := by
  simp [State.inRead, h]

theorem inRead_eoi (h : s.mem.src[s.mem.ipos]? = none) (he : s.mem.ends = true) :
    s.inRead = some (.eoi, { s with mem := { s.mem with eoiTaken := true } }) := by
  simp [State.inRead, h, he]

/-- R33: the pushed-back byte first, else a read of the source. -/
theorem decRead_cases (h : s.decRead = some (x, t)) :
    (s.laValid = true ∧ x = .byte s.laByte ∧ t = { s with laValid := false }) ∨
    (s.laValid = false ∧ s.inRead = some (x, t)) := by
  unfold State.decRead at h
  split at h
  · rename_i hv
    obtain ⟨rfl, rfl⟩ := Prod.mk.inj (Option.some.inj h)
    exact .inl ⟨hv, rfl, rfl⟩
  · rename_i hv
    exact .inr ⟨by simpa using hv, h⟩

theorem peekIn_eq_inRead : s.peekIn = s.inRead.map Prod.fst := by
  unfold State.peekIn State.inRead
  cases s.mem.src[s.mem.ipos]? with
  | some b => rfl
  | none => cases s.mem.ends <;> rfl

theorem peekDec_eq_decRead : s.peekDec = s.decRead.map Prod.fst := by
  unfold State.peekDec State.decRead
  split
  · rfl
  · exact peekIn_eq_inRead

/-- What a step looks at is what its read returns. -/
theorem peek_eq_read : s.peek = s.read.map Prod.fst := by
  unfold State.peek State.read
  cases readKind s.phase
  · rfl
  · exact peekIn_eq_inRead
  · exact peekDec_eq_decRead

theorem read_of_peek (h : s.peek = some x) : ∃ t, s.read = some (x, t) := by
  rw [peek_eq_read] at h
  obtain ⟨⟨y, t⟩, hr, rfl⟩ := Option.map_eq_some_iff.mp h
  exact ⟨t, hr⟩

/-- After a read in any phase, everything but the source's cursor and the pushback buffer is as before. -/
theorem read_frame (h : s.read = some (x, t)) :
    t = { s with laValid := t.laValid, mem := { s.mem with ipos := t.mem.ipos, eoiTaken := t.mem.eoiTaken } } := by
  unfold State.read at h
  split at h
  · cases h
  · obtain ⟨b, -, -, rfl⟩ | ⟨-, -, -, rfl⟩ := inRead_cases h <;> rfl
  · obtain ⟨-, -, rfl⟩ | ⟨-, h⟩ := decRead_cases h
    · rfl
    · obtain ⟨b, -, -, rfl⟩ | ⟨-, -, -, rfl⟩ := inRead_cases h <;> rfl

/-- Everything the one read of a step can do (R31, R33): the buffer, the next byte, or the end of input. -/
theorem read_cases (h : s.read = some (x, t)) :
    (s.laValid = true ∧ readKind s.phase = .decRead ∧ x = .byte s.laByte ∧ t = { s with laValid := false }) ∨
    ((readKind s.phase = .decRead → s.laValid = false) ∧ ∃ b, x = .byte b ∧ s.mem.src[s.mem.ipos]? = some b ∧
      t = { s with mem := { s.mem with ipos := s.mem.ipos + 1 } }) ∨
    ((readKind s.phase = .decRead → s.laValid = false) ∧ x = .eoi ∧ s.mem.src[s.mem.ipos]? = none ∧
      s.mem.ends = true ∧ t = { s with mem := { s.mem with eoiTaken := true } }) := by
  unfold State.read at h
  split at h
  · cases h
  · rename_i hk
    obtain ⟨b, h1, h2, h3⟩ | ⟨h1, h2, h3, h4⟩ := inRead_cases h
    · exact .inr (.inl ⟨by simp [hk], b, h1, h2, h3⟩)
    · exact .inr (.inr ⟨by simp [hk], h1, h2, h3, h4⟩)
  · rename_i hk
    obtain ⟨h1, h2, h3⟩ | ⟨hl, h⟩ := decRead_cases h
    · exact .inl ⟨h1, hk, h2, h3⟩
    · obtain ⟨b, h1, h2, h3⟩ | ⟨h1, h2, h3, h4⟩ := inRead_cases h
      · exact .inr (.inl ⟨fun _ => hl, b, h1, h2, h3⟩)
      · exact .inr (.inr ⟨fun _ => hl, h1, h2, h3, h4⟩)

/-! ## A step on one symbol -/

variable {p : Phase} {c : Bool} {eff : State → Host.Outcome State Fault Refusal}

/-- A transition gives a next state only where its row is selected, and then its effect on the state after the read. -/
theorem onSymbol_next {u : State} (h : onSymbol p x c s eff = .next u) :
    s.phase = p ∧ c = true ∧ ∃ t, s.read = some (x, t) ∧ eff t = .next u := by
  unfold onSymbol at h
  split at h
  · rename_i hp
    split at h
    · rename_i y t hr
      split at h
      · rename_i hy
        subst hy
        exact ⟨hp.1, hp.2, t, hr, h⟩
      · cases h
    · cases h
  · cases h

/-- Where the row is selected, a transition is its effect on the state after the read. -/
theorem onSymbol_selected (hp : s.phase = p) (hc : c = true) (hr : s.read = some (x, t)) :
    onSymbol p x c s eff = eff t := by
  simp [onSymbol, hp, hc, hr]

/-- Where the row is not selected, nothing happens (log 12). -/
theorem onSymbol_notSelected (h : ¬(s.phase = p ∧ c = true ∧ s.peek = some x)) :
    onSymbol p x c s eff = .refused .notSelected := by
  unfold onSymbol
  split
  · rename_i hp
    split
    · rename_i y t hr
      have hy : y ≠ x := fun e => h ⟨hp.1, hp.2, by simp [peek_eq_read, hr, e]⟩
      simp [hy]
    · rfl
  · rfl

theorem unread_empty {b : Byte} (h : s.laValid = false) :
    s.unread b = .next { s with laByte := b, laValid := true } := by
  simp [State.unread, h]

theorem onCommand_ready {f : State → State} (h : s.cmdReady = true) : onCommand s f = .next (f s.accept) := by
  simp [onCommand, h]

theorem onCommand_busy {f : State → State} (h : s.cmdReady = false) : onCommand s f = .next s := by
  simp [onCommand, h]

theorem andThen_next {o : Host.Outcome State Fault Refusal} {f : State → Host.Outcome State Fault Refusal}
    {u : State} (h : andThen o f = .next u) : ∃ t, o = .next t ∧ f t = .next u := by
  cases o with
  | next t => exact ⟨t, rfl, h⟩
  | fault r => cases h
  | refused r => cases h

@[simp] theorem andThen_of_next (u : State) (f : State → Host.Outcome State Fault Refusal) :
    andThen (.next u) f = f u := rfl

@[simp] theorem andThen_of_refused (r : Refusal) (f : State → Host.Outcome State Fault Refusal) :
    andThen (.refused r) f = .refused r := rfl

/-! ## The ready line, the busy bit -/

theorem cmdReady_iff : s.cmdReady = true ↔ s.phase = .idle ∨ s.phase = .done ∨ s.phase = .error := by
  unfold State.cmdReady
  cases s.phase <;> simp [Phase.acceptsCommand]

theorem busy_eq_not_cmdReady : s.busy = !s.cmdReady := by
  unfold State.busy State.cmdReady
  cases s.phase <;> rfl

theorem fetch_none_of_ready (h : s.cmdReady = true) : s.fetch = none := by
  have hk : s.peek = none := by
    unfold State.peek
    rcases cmdReady_iff.mp h with h | h | h <;> simp [h, readKind]
  have ht : s.fetchToken = none := by
    unfold State.fetchToken
    rcases cmdReady_iff.mp h with h | h | h <;> simp [h, tokenMethod]
  simp [State.fetch, State.fetchSymbol, ht, hk]

/-! ## One step -/

/-- Everything a step can do: a reset, a command taken, an instruction of the core's own, or a passage without one. -/
theorem step_cases (h : step s = .next t) :
    (∃ l, s.host = .reset :: l ∧ t = (s.withHost l).applyReset) ∨
    (∃ w o l, s.host = .command w o :: l ∧ s.cmdReady = true ∧
      exec (decodeCmd w) ((s.withHost l).attach o) = .next t) ∨
    (∃ l i, (s.host = l ∨ s.host = .wait :: l) ∧ (s.withHost l).fetch = some i ∧
      exec i (s.withHost l) = .next t) ∨
    (∃ l, (s.host = l ∨ s.host = .wait :: l) ∧ (s.withHost l).fetch = none ∧ t = s.withHost l) := by
  have core : ∀ l, (s.host = l ∨ s.host = .wait :: l) →
      (match (s.withHost l).dueCore with | .run i u => exec i u | .pass u => .next u) = .next t →
      (∃ l i, (s.host = l ∨ s.host = .wait :: l) ∧ (s.withHost l).fetch = some i ∧
        exec i (s.withHost l) = .next t) ∨
      (∃ l, (s.host = l ∨ s.host = .wait :: l) ∧ (s.withHost l).fetch = none ∧ t = s.withHost l) := by
    intro l hl hd
    unfold State.dueCore at hd
    cases hf : (s.withHost l).fetch with
    | some i => exact .inl ⟨l, i, hl, hf, by simpa [hf] using hd⟩
    | none => exact .inr ⟨l, hl, hf, by simpa [hf] using hd.symm⟩
  have self : ∀ l, s.host = l → s.withHost l = s := by rintro l rfl; rfl
  unfold step State.due at h
  split at h
  all_goals rename_i hd; split at hd
  all_goals rename_i hh
  · exact .inr (.inr (core [] (.inl hh) (by simpa [self _ hh, hd] using h)))
  · exact .inr (.inr (core _ (.inr hh) (by simpa [hd] using h)))
  · cases hd
  · split at hd
    · rename_i hc
      cases hd
      exact .inr (.inl ⟨_, _, _, hh, hc, h⟩)
    · exact .inr (.inr (core _ (.inl hh) (by simpa [self _ hh, hd] using h)))
  · exact .inr (.inr (core [] (.inl hh) (by simpa [self _ hh, hd] using h)))
  · exact .inr (.inr (core _ (.inr hh) (by simpa [hd] using h)))
  · cases hd
    cases h
    exact .inl ⟨_, hh, rfl⟩
  · split at hd
    · cases hd
    · exact .inr (.inr (core _ (.inl hh) (by simpa [self _ hh, hd] using h)))

end Sys2Proof.Machine
end

