-- ==== Sys2Proof/Laws/Exec.lean ====
section
/-! SUPPORT. What an instruction does when it gives a next state: one table of effects for the twenty transitions, and a rule that
carries a property from transitions and commands to tokens and steps. -/

namespace Sys2Proof.Machine

/-- The state a transition leads to from `s`, where `u` is the state after its read; `s` itself for a row that is no transition. -/
def effectOf (i : Instr) (s u : State) : State :=
  match i with
  | .encA | .encB | .dec | .aPair _ _ | .bLit _ | .bRun _ _ => s
  | .scanFirst b => { u with cur := b, runLen := 1, runOpen := true }
  | .scanExtend _ => { u with runLen := s.runLen + 1 }
  | .scanCap _ => { u with runLen := 1 }.outWrite (tok s.method s.cur Config.runCap)
  | .scanBreak b => { u with cur := b, runLen := 1 }.outWrite (tok s.method s.cur s.runLen)
  | .scanEnd => { u with runOpen := false, phase := .done }.outWrite (if s.runOpen then tok s.method s.cur s.runLen else [])
  | .tagA => { u with method := .A, phase := .decACnt }
  | .tagB => { u with method := .B, phase := .decBFirst }
  | .tagIll _ => u.raiseError .unknownMethod
  | .tagEoi => u.raiseError Config.emptyDecodeErr
  | .daCount c => { u with cnt := c, phase := .decAVal }
  | .daEnd => { u with phase := .done }
  | .daValue v => { u with phase := .decACnt }.outWrite (rep s.cnt.toNat v)
  | .daTrunc => u.raiseError .malformedStream
  | .dbFirst b => { u with b1 := b, phase := .decBSecond }
  | .dbEnd0 => { u with phase := .done }
  | .dbLit b => { { u with phase := .decBFirst }.outWrite [s.b1] with laByte := b, laValid := true }
  | .dbPair _ => { u with phase := .decBCnt }
  | .dbEnd1 => { u with phase := .done }.outWrite [s.b1]
  | .dbCount c => { u with phase := .decBFirst }.outWrite (rep c.toNat s.b1)
  | .dbTrunc => u.raiseError .malformedStream

variable {i : Instr} {x : Symbol} {s t : State}

/-- A pushback read always leaves the buffer empty (R23 item 2). -/
theorem decRead_empties (h : s.decRead = some (x, t)) : t.laValid = false := by
  obtain ⟨-, -, rfl⟩ | ⟨hl, h⟩ := decRead_cases h
  · rfl
  · obtain ⟨b, -, -, rfl⟩ | ⟨-, -, -, rfl⟩ := inRead_cases h <;> exact hl

/-- Everything a transition can do: it gives a next state only where its row is selected (R62), and then its effect. -/
theorem exec_transition_next (hx : i.symbol? = some x) (h : exec i s = .next t) :
    i.wf = true ∧ admits s.ctx i = true ∧ ∃ u, s.read = some (x, u) ∧ t = effectOf i s u := by
  cases i <;> simp only [Instr.symbol?, Option.some.injEq, reduceCtorEq] at hx
  all_goals subst hx
  case dbLit b =>
    obtain ⟨hp, hc, u, hr, he⟩ := onSymbol_next h
    have hl : u.laValid = false := by
      have : s.decRead = some (.byte b, u) := by simpa [State.read, hp, readKind] using hr
      exact decRead_empties this
    rw [unread_empty (by simpa using hl)] at he
    cases he
    exact ⟨rfl, by simpa [admits, hp] using hc, u, hr, rfl⟩
  all_goals
    obtain ⟨hp, hc, u, hr, he⟩ := onSymbol_next h
    cases he
    refine ⟨?_, ?_, u, hr, rfl⟩
    · first | rfl | simpa [Instr.wf, tagByte] using hc
    · first
      | (simp [admits, hp]; done)
      | (simp only [admits, State.ctx_phase, State.ctx_runOpen, State.ctx_cur, State.ctx_runLen, State.ctx_b1, hp,
          beq_self_eq_true, Bool.true_and]
         exact hc)

/-- A relation between states that commands and transitions establish, and that chains, holds along every instruction. -/
theorem exec_chain {P : State → State → Prop} (chain : ∀ s u t, P s u → P u t → P s t)
    (cmd : ∀ i s t, i = .encA ∨ i = .encB ∨ i = .dec → exec i s = .next t → P s t)
    (sym : ∀ i x s t, i.symbol? = some x → exec i s = .next t → P s t) :
    ∀ i s t, exec i s = .next t → P s t := by
  intro i s t h
  cases hx : i.symbol? with
  | some x => exact sym i x s t hx h
  | none =>
    cases i <;> simp only [Instr.symbol?, reduceCtorEq] at hx
    case encA => exact cmd _ s t (.inl rfl) h
    case encB => exact cmd _ s t (.inr (.inl rfl)) h
    case dec => exact cmd _ s t (.inr (.inr rfl)) h
    case aPair c v =>
      obtain ⟨u, h1, h2⟩ := andThen_next h
      exact chain _ _ _ (sym (.daCount c) _ s u rfl h1) (sym (.daValue v) _ u t rfl h2)
    case bLit v =>
      obtain ⟨u, h1, h2⟩ := andThen_next h
      refine chain _ _ _ (sym (.dbFirst v) _ s u rfl h1) ?_
      split at h2
      · exact sym (.dbLit _) _ u t rfl h2
      · exact sym .dbEnd1 _ u t rfl h2
      · cases h2
    case bRun v c =>
      obtain ⟨u, h1, h2⟩ := andThen_next h
      obtain ⟨w, h2, h3⟩ := andThen_next h2
      exact chain _ _ _ (sym (.dbFirst v) _ s u rfl h1)
        (chain _ _ _ (sym (.dbPair v) _ u w rfl h2) (sym (.dbCount c) _ w t rfl h3))

end Sys2Proof.Machine
end

