-- ==== Sys2Proof/Laws/Memory.lean ====
section
/-! SUPPORT. The streams keep their form (R22): the reset memory has it and every operation on the streams keeps it. -/

namespace Sys2Proof.Machine

variable {s t : State} {x : Symbol}

theorem reset_mem_wf : State.reset.mem.wf := by decide

theorem inRead_wf (h : s.inRead = some (x, t)) (hw : s.mem.wf) : t.mem.wf := by
  obtain ⟨hi, he, hb⟩ := hw
  obtain ⟨b, -, hg, rfl⟩ | ⟨-, hn, hends, rfl⟩ := inRead_cases h
  · have hlt : s.mem.ipos < s.mem.src.length := (List.getElem?_eq_some_iff.mp hg).1
    exact ⟨hlt, fun e => absurd (he e).1 (Nat.ne_of_lt hlt), hb⟩
  · exact ⟨hi, fun _ => ⟨Nat.le_antisymm hi (List.getElem?_eq_none_iff.mp hn), hends⟩, hb⟩

theorem decRead_wf (h : s.decRead = some (x, t)) (hw : s.mem.wf) : t.mem.wf := by
  obtain ⟨-, -, rfl⟩ | ⟨-, h⟩ := decRead_cases h
  · exact hw
  · exact inRead_wf h hw

theorem read_wf (h : s.read = some (x, t)) (hw : s.mem.wf) : t.mem.wf := by
  unfold State.read at h
  split at h
  · cases h
  · exact inRead_wf h hw
  · exact decRead_wf h hw

theorem outWrite_wf (l : List Byte) (hw : s.mem.wf) : (s.outWrite l).mem.wf :=
  ⟨hw.1, hw.2.1, Nat.le_trans hw.2.2 (by simp)⟩

theorem unread_wf {b : Byte} (h : s.unread b = .next t) (hw : s.mem.wf) : t.mem.wf := by
  unfold State.unread at h
  split at h <;> cases h
  exact hw

theorem raiseError_wf (k : ErrorKind) (hw : s.mem.wf) : (s.raiseError k).mem.wf := hw

theorem accept_wf : s.accept.mem.wf :=
  ⟨Nat.zero_le _, fun h => (Bool.false_ne_true h).elim, Nat.le_refl _⟩

theorem applyReset_wf (hw : s.mem.wf) : s.applyReset.mem.wf :=
  ⟨hw.1, fun h => (Bool.false_ne_true h).elim, hw.2.2⟩

theorem attach_wf (o : Option Stream) (hw : s.mem.wf) : (s.attach o).mem.wf := by
  cases o with
  | none => exact hw
  | some st => exact ⟨Nat.zero_le _, fun h => (Bool.false_ne_true h).elim, hw.2.2⟩

/-- The effect of a transition keeps the form the read left (R62). -/
theorem effectOf_wf (i : Instr) (u : State) (hs : s.mem.wf) (hu : u.mem.wf) : (effectOf i s u).mem.wf := by
  cases i <;> first | exact hs | exact hu | exact outWrite_wf (s := { u with .. }) _ hu

end Sys2Proof.Machine
end

