-- ==== Sys2Proof/Laws/PerInstr.lean ====
section
/-! SUPPORT. What holds of every instruction as syntax, one lemma an instruction. -/

namespace Sys2Proof.Laws.CodeLevel

/-- The level an instruction's code is written at (R63): a command word exactly for the three commands, a symbol word exactly for
a row that follows a read, and then the word of that very symbol (R57); a token of the length its format has (R52, R53). -/
def Statement (i : Instr) : Prop :=
  match i.symbol?, encode i with
  | some x, .symbol w => symbolOfWord w = x
  | none, .cmd w => decodeCmd w = i
  | none, .token bytes => (∃ m, splitToken m bytes = .ok (i, [])) ∧ 1 ≤ bytes.length ∧ bytes.length ≤ 3
  | _, _ => False

theorem byte_word (b : Byte) : symbolOfWord (wordOfSymbol (.byte b)) = .byte b := by
  simp [symbolOfWord, wordOfSymbol]

theorem eoi_word : symbolOfWord (wordOfSymbol .eoi) = .eoi := rfl

theorem encA : Statement .encA := rfl
theorem encB : Statement .encB := rfl
theorem dec : Statement .dec := rfl
theorem aPair (c v : Byte) : Statement (.aPair c v) := ⟨⟨.A, rfl⟩, by simp, by simp⟩
theorem bLit (v : Byte) : Statement (.bLit v) := ⟨⟨.B, rfl⟩, by simp, by simp⟩
theorem bRun (v c : Byte) : Statement (.bRun v c) := ⟨⟨.B, by simp [splitToken]⟩, by simp, by simp⟩
theorem scanFirst (b : Byte) : Statement (.scanFirst b) := byte_word b
theorem scanExtend (b : Byte) : Statement (.scanExtend b) := byte_word b
theorem scanCap (b : Byte) : Statement (.scanCap b) := byte_word b
theorem scanBreak (b : Byte) : Statement (.scanBreak b) := byte_word b
theorem scanEnd : Statement .scanEnd := eoi_word
theorem tagA : Statement .tagA := byte_word Config.tagA
theorem tagB : Statement .tagB := byte_word Config.tagB
theorem tagIll (t : Byte) : Statement (.tagIll t) := byte_word t
theorem tagEoi : Statement .tagEoi := eoi_word
theorem daCount (c : Byte) : Statement (.daCount c) := byte_word c
theorem daEnd : Statement .daEnd := eoi_word
theorem daValue (v : Byte) : Statement (.daValue v) := byte_word v
theorem daTrunc : Statement .daTrunc := eoi_word
theorem dbFirst (b : Byte) : Statement (.dbFirst b) := byte_word b
theorem dbEnd0 : Statement .dbEnd0 := eoi_word
theorem dbLit (b : Byte) : Statement (.dbLit b) := byte_word b
theorem dbPair (b : Byte) : Statement (.dbPair b) := byte_word b
theorem dbEnd1 : Statement .dbEnd1 := eoi_word
theorem dbCount (c : Byte) : Statement (.dbCount c) := byte_word c
theorem dbTrunc : Statement .dbTrunc := eoi_word

end Sys2Proof.Laws.CodeLevel
end

