-- ==== Sys2Proof/Laws/Ports.lean ====
section
/-! SUPPORT. Everything a clock edge can do at the ports (R46). -/

namespace Sys2Proof.Machine

variable {i : PinsIn} {p : Ports} {s : State}

@[simp] theorem State.withHost_status (l : List HostEvent) : (s.withHost l).status = s.status := rfl
@[simp] theorem State.deliver_phase (e : Bool) (d : Byte) : (s.deliver e d).phase = s.phase := rfl
@[simp] theorem State.deliver_status (e : Bool) (d : Byte) : (s.deliver e d).status = s.status := rfl

theorem Ports.status_of_pend_nil (h : p.pend = []) : p.status = p.core.status := by simp [Ports.status, h]

theorem Ports.status_of_pend (h : p.pend ≠ []) : p.status = p.shown := by simp [Ports.status, h]

/-- The low bit of `STATUS` is `st_busy` (R20). -/
theorem status_busy_bit : s.status.getLsbD 0 = s.busy := by
  unfold State.status
  cases s.busy <;> cases s.isDone <;> cases s.err <;> rfl

/-- Nothing moves, or the core steps once and the step's output is held back, with `STATUS` as it was. -/
theorem advance_cases :
    p.advance s = p ∨ ∃ t, step s = .next t ∧
      p.advance s = ⟨{ t with mem := { t.mem with sink := s.mem.sink } }, t.mem.sink.drop s.mem.sink.length, s.status⟩ := by
  unfold Ports.advance
  cases h : step s with
  | next t => exact .inr ⟨t, rfl, rfl⟩
  | fault r => exact .inl rfl
  | refused r => exact .inl rfl

/-- Everything an edge can do: reset, one byte of output, standing still, or one step of the core. -/
theorem edge_cases :
    (i.rst = true ∧ p.edge i = ⟨p.core.applyReset, [], p.core.applyReset.status⟩) ∨
    (i.rst = false ∧ i.outReady = true ∧ ∃ b l, p.pend = b :: l ∧ p.edge i = ⟨p.core.outWrite [b], l, p.shown⟩) ∨
    (i.rst = false ∧ p.edge i = p) ∨
    (i.rst = false ∧ p.pend = [] ∧ p.core.cmdReady = true ∧ i.cmdValid = true ∧
      p.edge i = p.advance (p.core.withHost [.command i.cmd (some ⟨[], false⟩)])) ∨
    (i.rst = false ∧ p.pend = [] ∧ p.core.cmdReady = false ∧ p.core.phase = .decBFirst ∧ p.core.laValid = true ∧
      p.edge i = p.advance p.core) ∨
    (i.rst = false ∧ p.pend = [] ∧ p.core.cmdReady = false ∧ ¬(p.core.phase = .decBFirst ∧ p.core.laValid = true) ∧
      i.inValid = true ∧ p.edge i = p.advance (p.core.deliver i.inEoi i.inData)) := by
  cases hr : i.rst with
  | true => exact .inl ⟨rfl, by simp [Ports.edge, hr]⟩
  | false =>
    right
    cases hp : p.pend with
    | cons b l =>
      cases ho : i.outReady with
      | true => exact .inl ⟨rfl, rfl, b, l, rfl, by simp [Ports.edge, hr, hp, ho]⟩
      | false => exact .inr (.inl ⟨rfl, by simp [Ports.edge, hr, hp, ho]⟩)
    | nil =>
      right
      cases hc : p.core.cmdReady with
      | true =>
        cases hv : i.cmdValid with
        | true => exact .inr (.inl ⟨rfl, rfl, rfl, rfl, by simp [Ports.edge, hr, hp, hc, hv]⟩)
        | false => exact .inl ⟨rfl, by simp [Ports.edge, hr, hp, hc, hv]⟩
      | false =>
        by_cases hb : p.core.phase = .decBFirst ∧ p.core.laValid = true
        · exact .inr (.inr (.inl ⟨rfl, rfl, rfl, hb.1, hb.2, by simp [Ports.edge, hr, hp, hc, hb]⟩))
        · cases hv : i.inValid with
          | true => exact .inr (.inr (.inr ⟨rfl, rfl, rfl, hb, rfl, by simp [Ports.edge, hr, hp, hc, hb, hv]⟩))
          | false => exact .inl ⟨rfl, by simp [Ports.edge, hr, hp, hc, hb, hv]⟩

end Sys2Proof.Machine
end

