-- ==== Sys2Proof/Laws/Streams.lean ====
section
/-! SUPPORT. The whole-stream functions on a list that grows at its front: what the detector's steps unfold. -/

namespace Sys2Proof.Machine

@[simp] theorem rep_zero (v : Byte) : rep 0 v = [] := rfl

theorem rep_succ (n : Nat) (v : Byte) : rep (n + 1) v = v :: rep n v := rfl

theorem rep_succ' (n : Nat) (v : Byte) : rep (n + 1) v = rep n v ++ [v] := List.replicate_succ'

@[simp] theorem length_rep (n : Nat) (v : Byte) : (rep n v).length = n := List.length_replicate

theorem rep_add (m n : Nat) (v : Byte) : rep (m + n) v = rep m v ++ rep n v :=
  List.replicate_add m n v

@[simp] theorem maxruns_nil : maxruns [] = [] := rfl

/-- The bytes before the first byte that differs from `v`: a run of `v`s at the front of a list that does not go on with `v`
is one maximal run. -/
theorem maxruns_rep_append (v : Byte) (l : List Byte) (h : l.head? ≠ some v) (n : Nat) :
    maxruns (rep (n + 1) v ++ l) = (v, n + 1) :: maxruns l := by
  induction n with
  | zero =>
    show maxruns (v :: l) = _
    cases l with
    | nil => rfl
    | cons b l =>
      have hb : v ≠ b := fun e => h (by simp [e])
      have : ∀ r, maxruns (b :: l) = r → r.head?.map Prod.fst = some b := by
        rintro r rfl
        simp only [maxruns]
        split
        · rfl
        · split
          · rename_i e
            simp [e]
          · rfl
      rw [maxruns]
      split
      · rename_i e
        exact absurd (this _ e) (by simp)
      · rename_i w m r e
        have hw : w = b := by simpa using this _ e
        subst hw
        simp [hb, e]
  | succ n ih =>
    rw [rep_succ, List.cons_append, maxruns, ih]
    simp

theorem chunkRun_small (v : Byte) (n : Nat) (h1 : 1 ≤ n) (h2 : n ≤ 255) : chunkRun (v, n) = [(v, n)] := by
  unfold chunkRun
  rcases Nat.lt_or_ge n 255 with h | h
  · have hd : n / 255 = 0 := Nat.div_eq_of_lt h
    have hm : n % 255 = n := Nat.mod_eq_of_lt h
    have : n ≠ 0 := by omega
    simp [hd, hm, this]
  · obtain rfl : n = 255 := by omega
    simp

theorem chunkRun_full (v : Byte) (n : Nat) :
    chunkRun (v, 255 + n) = (v, 255) :: chunkRun (v, n) := by
  unfold chunkRun
  have hd : (255 + n) / 255 = n / 255 + 1 := by omega
  have hm : (255 + n) % 255 = n % 255 := by omega
  simp only [hd, hm, List.replicate_succ, List.cons_append]

@[simp] theorem chunks_nil : chunks [] = [] := rfl

/-- A run below or at the cap, cut by a different byte or by the end of input, is one pair. -/
theorem chunks_rep_append (v : Byte) (l : List Byte) (h : l.head? ≠ some v) (n : Nat) (h1 : 1 ≤ n) (h2 : n ≤ 255) :
    chunks (rep n v ++ l) = (v, n) :: chunks l := by
  obtain ⟨k, rfl⟩ : ∃ k, n = k + 1 := ⟨n - 1, by omega⟩
  simp [chunks, maxruns_rep_append v l h, chunkRun_small v (k + 1) h1 h2]

/-- Any list is some copies of a byte and then a list that does not go on with it. -/
theorem exists_rep_append (v : Byte) (l : List Byte) : ∃ k r, l = rep k v ++ r ∧ r.head? ≠ some v := by
  induction l with
  | nil => exact ⟨0, [], rfl, by simp⟩
  | cons b l ih =>
    by_cases hb : b = v
    · obtain ⟨k, r, rfl, hr⟩ := ih
      exact ⟨k + 1, r, by rw [hb, rep_succ, List.cons_append], hr⟩
    · exact ⟨0, b :: l, rfl, by simpa using hb⟩

/-- A full run followed by its own byte is cut at the cap (R73). -/
theorem chunks_full_append (v : Byte) (l : List Byte) :
    chunks (rep 255 v ++ v :: l) = (v, 255) :: chunks (v :: l) := by
  obtain ⟨k, r, rfl, hr⟩ := exists_rep_append v l
  have e : v :: (rep k v ++ r) = rep (k + 1) v ++ r := rfl
  have e2 : rep 255 v ++ (rep (k + 1) v ++ r) = rep ((255 + k) + 1) v ++ r := by
    rw [← List.append_assoc, ← rep_add, Nat.add_assoc]
  rw [e, e2]
  simp only [chunks, maxruns_rep_append v r hr, List.flatMap_cons]
  rw [Nat.add_assoc, chunkRun_full v (k + 1), List.cons_append]

theorem payload_nil (m : Method) : payload m [] = [] := by simp [payload]

theorem payload_rep_append (m : Method) (v : Byte) (l : List Byte) (h : l.head? ≠ some v) (n : Nat) (h1 : 1 ≤ n)
    (h2 : n ≤ 255) : payload m (rep n v ++ l) = pairBytes m (v, n) ++ payload m l := by
  simp [payload, chunks_rep_append v l h n h1 h2]

theorem payload_full_append (m : Method) (v : Byte) (l : List Byte) :
    payload m (rep 255 v ++ v :: l) = pairBytes m (v, 255) ++ payload m (v :: l) := by
  simp [payload, chunks_full_append]

/-- The token the detector's steps write is the token of the whole-stream formulas (R80, R90, R91, R122, R123). -/
theorem tok_eq_pairBytes (m : Method) (v n : Byte) (h : 1 ≤ n.toNat) : tok m v n = pairBytes m (v, n.toNat) := by
  have h0 : ¬n = 0 := by rintro rfl; exact absurd h (by decide)
  have h1 : n = 1 ↔ n.toNat = 1 := BitVec.toNat_inj.symm
  unfold tok pairBytes
  rw [if_neg h0]
  cases m
  · simp
  · simp only [h1, BitVec.ofNat_toNat, BitVec.setWidth_eq]

@[simp] theorem after_nil (o : Result × List Byte) : after [] o = o := rfl

theorem after_after (l r : List Byte) (o : Result × List Byte) : after l (after r o) = after (l ++ r) o := by
  simp [after, List.append_assoc]

theorem decA_pair (c v : Byte) (l : List Byte) : decA (c :: v :: l) = after (rep c.toNat v) (decA l) := rfl

theorem decB_run (v c : Byte) (l : List Byte) : decB (v :: v :: c :: l) = after (rep c.toNat v) (decB l) := by
  simp [decB]

theorem decB_lit (v w : Byte) (l : List Byte) (h : w ≠ v) : decB (v :: w :: l) = after [v] (decB (w :: l)) := by
  rw [decB.eq_def]
  simp [h]

end Sys2Proof.Machine
end

