-- ==== Sys2Proof/Laws/Token.lean ====
section
/-! SUPPORT. What a step in token grain fetches. -/

namespace Sys2Proof.Machine

variable {s : State} {i : Instr}

theorem fst_toOption_eq_some {o : Except Reject (Instr × List Byte)} :
    o.toOption.map Prod.fst = some i ↔ ∃ r, o = .ok (i, r) := by
  cases o with
  | error e => simp [Except.toOption]
  | ok q => cases q; simp [Except.toOption]

/-- The token fetched is the whole token that stands at the boundary (R53, R101). -/
theorem fetchToken_eq_some : s.fetchToken = some i ↔ s.WholeToken i := by
  unfold State.fetchToken State.WholeToken
  cases hp : s.phase <;> simp only [tokenMethod, reduceCtorEq, false_and, or_self, or_false, false_or, true_and]
  case decACnt => exact fst_toOption_eq_some
  case decBFirst =>
    split
    · rename_i h
      have : ¬(s.mem.ends = true ∨ 2 ≤ s.lookahead.length) := by simp [h.1]; omega
      simp [this]
    · rename_i h
      have : s.mem.ends = true ∨ 2 ≤ s.lookahead.length := by
        cases he : s.mem.ends with
        | true => exact .inl rfl
        | false => exact .inr (by by_contra hl; exact h ⟨he, by omega⟩)
      simp only [this, true_and]
      exact fst_toOption_eq_some

/-- What the core executes next: the whole token in token grain where one stands, else the transition of the next symbol. -/
theorem fetch_cases :
    (s.tokenGrain = true ∧ ∃ i, s.WholeToken i ∧ s.fetch = some i) ∨
    ((s.tokenGrain = false ∨ ∀ i, ¬ s.WholeToken i) ∧ s.fetch = s.fetchSymbol) := by
  unfold State.fetch
  cases hg : s.tokenGrain with
  | false => exact .inr ⟨.inl rfl, rfl⟩
  | true =>
    cases hf : s.fetchToken with
    | some i => exact .inl ⟨rfl, i, fetchToken_eq_some.mp hf, rfl⟩
    | none =>
      exact .inr ⟨.inr fun i h => by simp [fetchToken_eq_some.mpr h] at hf, rfl⟩

end Sys2Proof.Machine
end

