-- ==== Sys2Proof/Tests/Slice0.lean ====
section
/-! SUPPORT. Tests of the model, each expected value written out from the spec's tables (`30_encoding.md`) or vectors
(`95_test_vectors.md`, ids S, T, V); and, for each statement with hypotheses, a concrete state that meets them. -/

namespace Sys2Proof.Tests

open Sys2Proof.Machine

/-! ## Well-formedness -/

theorem test_wf_tagIll_refuses_tag_a : (Instr.tagIll 0x21).wf = false := by decide
theorem test_wf_tagIll_refuses_tag_b : (Instr.tagIll 0x8A).wf = false := by decide
theorem test_wf_tagIll_neighbours : (Instr.tagIll 0x20).wf = true ∧ (Instr.tagIll 0x8B).wf = true := by decide

/-! ## Decoding: words written out bit by bit -/

/-- A decoding context with nothing but a phase. -/
def inPhase (p : Phase) : Ctx := ⟨p, false, 0, 0, 0⟩

/-- R58. -/
theorem test_decode_commands :
    decode (inPhase .idle) (.cmd 0b00#2) = .ok .encA ∧ decode (inPhase .done) (.cmd 0b01#2) = .ok .encB ∧
    decode (inPhase .error) (.cmd 0b10#2) = .ok .dec ∧ decode (inPhase .idle) (.cmd 0b11#2) = .ok .dec :=
  ⟨rfl, rfl, rfl, rfl⟩

/-- R62 rows 4 to 8, the symbol `0x57`; the cap decides between 254 and 255, the byte between `0x57` and `0x56`. -/
theorem test_decode_scan :
    decode (inPhase .encScan) (.symbol 0b001010111#9) = .ok (.scanFirst 0x57) ∧
    decode ⟨.encScan, true, 0x57, 254, 0⟩ (.symbol 0b001010111#9) = .ok (.scanExtend 0x57) ∧
    decode ⟨.encScan, true, 0x57, 255, 0⟩ (.symbol 0b001010111#9) = .ok (.scanCap 0x57) ∧
    decode ⟨.encScan, true, 0x56, 255, 0⟩ (.symbol 0b001010111#9) = .ok (.scanBreak 0x57) ∧
    decode ⟨.encScan, true, 0x57, 1, 0⟩ (.symbol 0b101010111#9) = .ok .scanEnd :=
  ⟨rfl, rfl, rfl, rfl, rfl⟩

/-- R62 rows 9 to 12; R51: all eight bits are compared. -/
theorem test_decode_tag :
    decode (inPhase .decTag) (.symbol 0b000100001#9) = .ok .tagA ∧
    decode (inPhase .decTag) (.symbol 0b010001010#9) = .ok .tagB ∧
    decode (inPhase .decTag) (.symbol 0b010100001#9) = .ok (.tagIll 0xA1) ∧
    decode (inPhase .decTag) (.symbol 0b100100001#9) = .ok .tagEoi :=
  ⟨rfl, rfl, rfl, rfl⟩

/-- R62 rows 13 to 16: a tag value in the payload is data. -/
theorem test_decode_method_a :
    decode (inPhase .decACnt) (.symbol 0b000100001#9) = .ok (.daCount 0x21) ∧
    decode (inPhase .decACnt) (.symbol 0b100000000#9) = .ok .daEnd ∧
    decode (inPhase .decAVal) (.symbol 0b010001010#9) = .ok (.daValue 0x8A) ∧
    decode (inPhase .decAVal) (.symbol 0b111111111#9) = .ok .daTrunc :=
  ⟨rfl, rfl, rfl, rfl⟩

/-- R62 rows 17 to 23. -/
theorem test_decode_method_b :
    decode (inPhase .decBFirst) (.symbol 0b001000001#9) = .ok (.dbFirst 0x41) ∧
    decode (inPhase .decBFirst) (.symbol 0b100000000#9) = .ok .dbEnd0 ∧
    decode ⟨.decBSecond, false, 0, 0, 0x41⟩ (.symbol 0b001000000#9) = .ok (.dbLit 0x40) ∧
    decode ⟨.decBSecond, false, 0, 0, 0x41⟩ (.symbol 0b001000001#9) = .ok (.dbPair 0x41) ∧
    decode ⟨.decBSecond, false, 0, 0, 0x41⟩ (.symbol 0b101000001#9) = .ok .dbEnd1 ∧
    decode ⟨.decBCnt, false, 0, 0, 0x41⟩ (.symbol 0b001000001#9) = .ok (.dbCount 0x41) ∧
    decode ⟨.decBCnt, false, 0, 0, 0x41⟩ (.symbol 0b100000000#9) = .ok .dbTrunc :=
  ⟨rfl, rfl, rfl, rfl, rfl, rfl, rfl⟩

/-- R52, R53: the three token formats, and what is no token. -/
theorem test_decode_tokens :
    decode (inPhase .decACnt) (.token [0b00001100, 0b01010111]) = .ok (.aPair 12 0x57) ∧
    decode (inPhase .decBFirst) (.token [0b01000010]) = .ok (.bLit 0x42) ∧
    decode (inPhase .decBFirst) (.token [0b01010111, 0b01010111, 0b00001100]) = .ok (.bRun 0x57 12) ∧
    decode (inPhase .decACnt) (.token [0x05]) = .error .halfPair ∧
    decode (inPhase .decBFirst) (.token [0x41, 0x41]) = .error .cutRun ∧
    decode (inPhase .decBFirst) (.token [0x41, 0x42]) = .error .trailingBytes ∧
    decode (inPhase .decBFirst) (.token []) = .error .emptyPayload ∧
    decode (inPhase .decBCnt) (.token [0x41]) = .error .notAtTokenBoundary :=
  ⟨rfl, rfl, rfl, rfl, rfl, rfl, rfl, rfl⟩

/-- R12: three phases read nothing. -/
theorem test_decode_no_symbol_in_done : decode (inPhase .done) (.symbol 0b000100001#9) = .error .phaseReadsNothing := rfl

/-- Bare words of the table (log 15): bit 0 is the least significant bit of the first byte. -/
theorem test_decode_table_words :
    decodeTableWord 8 0b01 = some .encB ∧ decodeTableWord 9 0x08A = some .tagB ∧ decodeTableWord 16 0x100 = some .tagEoi ∧
    decodeTableWord 16 0x570C = some (.aPair 0x0C 0x57) ∧ decodeTableWord 8 0x42 = some (.bLit 0x42) ∧
    decodeTableWord 24 0x0C5757 = some (.bRun 0x57 12) ∧ decodeTableWord 24 0x0C5756 = none := by decide

/-! ## One step: the vectors of `95_test_vectors.md` section 2 -/

/-- `p` after reset, with a source that holds exactly these bytes. -/
def at_ (p : Phase) (src : List Byte) : State :=
  { State.reset with phase := p, mem := { State.reset.mem with src := src } }

/-- An encode with an open run. -/
def scanning (m : Method) (cur len : Byte) (src : List Byte) : State :=
  { at_ .encScan src with method := m, runOpen := true, cur := cur, runLen := len }

/-- Something of the next state, if there is one. -/
def seen {α : Type} (o : Host.Outcome State Fault Refusal) (f : State → α) : Option α :=
  match o with
  | .next t => some (f t)
  | .fault _ => none
  | .refused _ => none

/-- T1, T1b. -/
theorem test_encA : seen (exec .encA { at_ .error [] with err := .malformedStream })
    (fun t => (t.phase, t.method, t.err, t.mem.sink)) = some (.encScan, .A, .none, [0x21]) := by decide
/-- T2. -/
theorem test_encB : seen (exec .encB (at_ .done [])) (fun t => (t.phase, t.method, t.mem.sink)) =
    some (.encScan, .B, [0x8A]) := by decide
/-- T3b. -/
theorem test_dec : seen (exec .dec { at_ .error [] with err := .unknownMethod }) (fun t => (t.phase, t.err, t.mem.sink)) =
    some (.decTag, .none, []) := by decide
/-- T3c. -/
theorem test_command_waits : exec .encB (at_ .decAVal [1]) = .next (at_ .decAVal [1]) := rfl
/-- T4b. -/
theorem test_scanFirst : seen (exec (.scanFirst 0x21) (at_ .encScan [0x21]))
    (fun t => (t.runOpen, t.cur, t.runLen, t.mem.sink, t.mem.ipos)) = some (true, 0x21, 1, [], 1) := by decide
/-- T5b. -/
theorem test_scanExtend : seen (exec (.scanExtend 0x57) (scanning .A 0x57 254 [0x57])) (fun t => (t.runLen, t.mem.sink)) =
    some (255, []) := by decide
/-- T6. -/
theorem test_scanCap_a : seen (exec (.scanCap 0x57) (scanning .A 0x57 255 [0x57]))
    (fun t => (t.cur, t.runLen, t.runOpen, t.mem.sink)) = some (0x57, 1, true, [0xFF, 0x57]) := by decide
/-- T6b. -/
theorem test_scanCap_b : seen (exec (.scanCap 0x57) (scanning .B 0x57 255 [0x57])) (fun t => t.mem.sink) =
    some [0x57, 0x57, 0xFF] := by decide
/-- T7. -/
theorem test_scanBreak_b : seen (exec (.scanBreak 0x42) (scanning .B 0x57 12 [0x42]))
    (fun t => (t.cur, t.runLen, t.mem.sink)) = some (0x42, 1, [0x57, 0x57, 0x0C]) := by decide
/-- T7e. -/
theorem test_scanBreak_full : seen (exec (.scanBreak 0x42) (scanning .A 0x41 255 [0x42])) (fun t => t.mem.sink) =
    some [0xFF, 0x41] := by decide
/-- T8. -/
theorem test_scanEnd_empty : seen (exec .scanEnd (at_ .encScan [])) (fun t => (t.phase, t.mem.sink, t.mem.eoiTaken)) =
    some (.done, [], true) := by decide
/-- T8c. -/
theorem test_scanEnd_b : seen (exec .scanEnd (scanning .B 0x41 1 [])) (fun t => (t.phase, t.runOpen, t.mem.sink)) =
    some (.done, false, [0x41]) := by decide
/-- T9. -/
theorem test_tagA : seen (exec .tagA (at_ .decTag [0x21])) (fun t => (t.phase, t.method, t.mem.ipos)) =
    some (.decACnt, .A, 1) := by decide
/-- T10. -/
theorem test_tagB : seen (exec .tagB (at_ .decTag [0x8A])) (fun t => (t.phase, t.method, t.laValid)) =
    some (.decBFirst, .B, false) := by decide
/-- T11b. -/
theorem test_tagIll : seen (exec (.tagIll 0x22) (at_ .decTag [0x22, 1])) (fun t => (t.phase, t.err, t.mem.ipos)) =
    some (.error, .unknownMethod, 1) := by decide
/-- T12, for either value of the parameter. -/
theorem test_tagEoi : seen (exec .tagEoi (at_ .decTag [])) (fun t => (t.phase, t.mem.sink, t.mem.eoiTaken)) =
    some (.error, [], true) := by decide
/-- T13b. -/
theorem test_daCount : seen (exec (.daCount 0) (at_ .decACnt [0])) (fun t => (t.phase, t.cnt)) = some (.decAVal, 0) := by
  decide
/-- T14. -/
theorem test_daEnd : seen (exec .daEnd (at_ .decACnt [])) (fun t => (t.phase, t.err)) = some (.done, .none) := by decide
/-- T15. -/
theorem test_daValue : seen (exec (.daValue 0x57) { at_ .decAVal [0x57] with cnt := 3 }) (fun t => (t.phase, t.mem.sink)) =
    some (.decACnt, [0x57, 0x57, 0x57]) := by decide
/-- T15d. -/
theorem test_daValue_zero : seen (exec (.daValue 0x41) (at_ .decAVal [0x41])) (fun t => (t.phase, t.mem.sink)) =
    some (.decACnt, []) := by decide
/-- T16. -/
theorem test_daTrunc : seen (exec .daTrunc { at_ .decAVal [] with cnt := 5 }) (fun t => (t.phase, t.err, t.mem.sink)) =
    some (.error, .malformedStream, []) := by decide
/-- T17. -/
theorem test_dbFirst : seen (exec (.dbFirst 0x57) (at_ .decBFirst [0x57])) (fun t => (t.phase, t.b1, t.mem.ipos)) =
    some (.decBSecond, 0x57, 1) := by decide
/-- T17b: the buffer, and the source not touched. -/
theorem test_dbFirst_pushback : seen (exec (.dbFirst 0x43) { at_ .decBFirst [9] with laValid := true, laByte := 0x43 })
    (fun t => (t.b1, t.laValid, t.mem.ipos)) = some (0x43, false, 0) := by decide
/-- T18. -/
theorem test_dbEnd0 : seen (exec .dbEnd0 (at_ .decBFirst [])) (fun t => t.phase) = some .done := by decide
/-- T19. -/
theorem test_dbLit : seen (exec (.dbLit 0x57) { at_ .decBSecond [0x57] with b1 := 0x42 })
    (fun t => (t.phase, t.laValid, t.laByte, t.mem.sink, t.mem.ipos)) = some (.decBFirst, true, 0x57, [0x42], 1) := by decide
/-- T20. -/
theorem test_dbPair : seen (exec (.dbPair 0x57) { at_ .decBSecond [0x57] with b1 := 0x57 })
    (fun t => (t.phase, t.b1, t.mem.sink)) = some (.decBCnt, 0x57, []) := by decide
/-- T21. -/
theorem test_dbEnd1 : seen (exec .dbEnd1 { at_ .decBSecond [] with b1 := 0x41 }) (fun t => (t.phase, t.mem.sink)) =
    some (.done, [0x41]) := by decide
/-- T22c. -/
theorem test_dbCount_zero : seen (exec (.dbCount 0) { at_ .decBCnt [0] with b1 := 0x41 }) (fun t => (t.phase, t.mem.sink)) =
    some (.decBFirst, []) := by decide
/-- R95: the copies are of `b1`, not of the count. -/
theorem test_dbCount : seen (exec (.dbCount 2) { at_ .decBCnt [2] with b1 := 0x41 }) (fun t => t.mem.sink) =
    some [0x41, 0x41] := by decide
/-- T23: neither marker byte is written. -/
theorem test_dbTrunc : seen (exec .dbTrunc { at_ .decBCnt [] with b1 := 0x41 }) (fun t => (t.phase, t.err, t.mem.sink)) =
    some (.error, .malformedStream, []) := by decide
/-- R52: the count is the first byte. -/
theorem test_aPair : seen (exec (.aPair 2 0x41) (at_ .decACnt [2, 0x41, 7])) (fun t => (t.phase, t.mem.sink, t.mem.ipos)) =
    some (.decACnt, [0x41, 0x41], 2) := by decide
/-- R53: the byte after a literal belongs to the next token. -/
theorem test_bLit : seen (exec (.bLit 0x41) (at_ .decBFirst [0x41, 0x42]))
    (fun t => (t.phase, t.laByte, t.laValid, t.mem.sink)) = some (.decBFirst, 0x42, true, [0x41]) := by decide
/-- T17b then R94, R95: a run whose first byte was pushed back. -/
theorem test_bRun : seen (exec (.bRun 0x59 2) { at_ .decBFirst [0x59, 2] with laValid := true, laByte := 0x59 })
    (fun t => (t.phase, t.laValid, t.mem.sink)) = some (.decBFirst, false, [0x59, 0x59]) := by decide

/-- The step the core takes by itself in P6 of the vectors: the tag `00`, the rest of the input left with the source. -/
theorem test_step_unknown_tag : seen (step (at_ .decTag [0x00, 0x01, 0x41]))
    (fun t => (t.status, t.mem.ipos, t.mem.eoiTaken)) = some (0b0100, 1, false) := by decide

/-- R105, R163: a step takes the presented command, with the stream attached for it. -/
theorem test_step_command :
    seen (step { State.reset with host := [.command 0b10 (some ⟨[0x21, 3, 0x41], true⟩)] })
      (fun t => (t.phase, t.mem.src, t.host)) = some (.decTag, [0x21, 3, 0x41], []) := by decide

/-! ## Whole streams: the vectors of section 1 -/

/-- The 67 bytes of S11 and S13. -/
def sample : List Byte :=
  rep 12 0x57 ++ [0x42] ++ rep 12 0x57 ++ rep 3 0x42 ++ rep 24 0x57 ++ [0x42] ++ rep 14 0x57

/-- S13. -/
theorem test_encode_a_sample : encodeStream .A sample =
    [0x21, 0x0C, 0x57, 0x01, 0x42, 0x0C, 0x57, 0x03, 0x42, 0x18, 0x57, 0x01, 0x42, 0x0E, 0x57] := by decide +kernel
/-- S11. -/
theorem test_encode_b_sample : encodeStream .B sample =
    [0x8A, 0x57, 0x57, 0x0C, 0x42, 0x57, 0x57, 0x0C, 0x42, 0x42, 0x03, 0x57, 0x57, 0x18, 0x42, 0x57, 0x57, 0x0E] := by
  decide +kernel
/-- S14, V8: a half pair after a whole one. -/
theorem test_decode_odd_payload : decodeStream [0x21, 2, 0x41, 5] = (.error .malformedStream, [0x41, 0x41]) := by decide
/-- S15, P7. -/
theorem test_decode_cut_run : decodeStream [0x8A, 0x41, 0x42, 0x42] = (.error .malformedStream, [0x41]) := by decide
/-- S16, S17. -/
theorem test_decode_unknown_tag : decodeStream [0x00, 0x01, 0x41] = (.error .unknownMethod, []) := by decide
/-- R99, R100. -/
theorem test_decode_run_counts : decodeStream [0x8A, 0x41, 0x41, 1] = (.done, [0x41]) ∧
    decodeStream [0x8A, 0x41, 0x41, 0, 0x42] = (.done, [0x42]) := by decide

/-! ## Ports -/

/-- R43, R46: one symbol is taken, its output byte is offered, and the next symbol is not asked for before it is accepted. -/
theorem test_port_edge :
    (Ports.edge ⟨false, false, 0, true, false, 0x42, true⟩ ⟨{ at_ .decAVal [] with cnt := 1 }, [], 0b0001⟩).pend = [0x42] ∧
    (Ports.edge ⟨false, false, 0, true, false, 0x42, true⟩ ⟨{ at_ .decAVal [] with cnt := 1 }, [], 0b0001⟩).inReady = false := by
  decide

/-- R46: `STATUS` after the acceptance of `ENC.A` from `DONE`, before and after the transfer of the tag byte. -/
theorem test_port_command_status :
    let i : PinsIn := ⟨false, true, 0b00, false, false, 0, true⟩
    let p : Ports := ⟨at_ .done [], [], 0⟩
    (p.edge i).pend = [0x21] ∧ (p.edge i).status = 0b0010 ∧ ((p.edge i).edge i).status = 0b0001 := by decide

/-- R42: a command and a symbol are transferred on the edge at which both lines are 1. -/
theorem test_port_transfers :
    (Ports.edge ⟨false, true, 0b10, false, false, 0, false⟩ ⟨State.reset, [], 0⟩).core.phase = .decTag ∧
    (Ports.edge ⟨false, false, 0, true, false, 0x8A, false⟩ ⟨at_ .decTag [], [], 1⟩).core.phase = .decBFirst := by decide

/-! ## Witnesses: for each statement with hypotheses, an instance that meets them all -/

/-- At the cap's two sides, on the tag's neighbour and on a three-byte token. -/
theorem witness_DecodeOfEncodeIsIdentity :
    ((Instr.scanExtend 0x57).wf = true ∧ admits ⟨.encScan, true, 0x57, 254, 0⟩ (.scanExtend 0x57) = true) ∧
    ((Instr.scanCap 0x57).wf = true ∧ admits ⟨.encScan, true, 0x57, 255, 0⟩ (.scanCap 0x57) = true) ∧
    ((Instr.tagIll 0x20).wf = true ∧ admits (inPhase .decTag) (.tagIll 0x20) = true) ∧
    ((Instr.bRun 0 0).wf = true ∧ admits (inPhase .decBFirst) (.bRun 0 0) = true) := by decide
theorem witness_TransitionMapHasExactlyOneRow :
    readKind (inPhase .decBSecond).phase ≠ .nothing ∧ readKind (inPhase .done).phase = .nothing := by decide
theorem witness_SymbolsAndTagsAreTotal : (inPhase .decTag).phase = .decTag := rfl
theorem witness_TokenisationIsGreedy : (0x40 : Byte) ≠ 0x41 := by decide

/-- The last byte, the end, and a read that returned the end. -/
theorem witness_InReadTakesNextByteOrEoi :
    (at_ .decTag [7]).mem.src[(at_ .decTag [7]).mem.ipos]? = some 7 ∧
    ((at_ .decTag []).mem.src[(at_ .decTag []).mem.ipos]? = none ∧ (at_ .decTag []).mem.ends = true) ∧
    ∃ t, (at_ .decTag []).inRead = some (.eoi, t) := ⟨rfl, ⟨rfl, rfl⟩, _, rfl⟩
theorem witness_PushbackReturnsTheByteFirst :
    ({ at_ .decBFirst [9] with laValid := true } : State).laValid = true ∧ (at_ .decBSecond [9]).laValid = false := by decide

theorem witness_StreamsOnlyGoForward :
    (∃ t, step { at_ .decACnt [1, 2] with tokenGrain := true } = .next t) ∧
    (∀ w o l, ({ at_ .decACnt [1, 2] with tokenGrain := true } : State).host = .command w o :: l →
      ({ at_ .decACnt [1, 2] with tokenGrain := true } : State).cmdReady = false) ∧
    (∃ t, step (at_ .decACnt [1, 2]) = .next t) ∧ (at_ .decACnt [1, 2]).tokenGrain = false :=
  ⟨⟨_, rfl⟩, fun _ _ _ h => (by cases h), ⟨_, rfl⟩, rfl⟩

theorem witness_EncodeCommandsWriteTheTag :
    (at_ .idle []).phase = .idle ∧ (at_ .done [1]).phase = .done ∧ (at_ .error [1]).phase = .error := ⟨rfl, rfl, rfl⟩
theorem witness_DecAwaitsTheTag :
    (at_ .idle []).phase = .idle ∧ (at_ .done [1]).phase = .done ∧ (at_ .error [1]).phase = .error := ⟨rfl, rfl, rfl⟩
theorem witness_CommandWaitsWhileBusy :
    let s := { at_ .decAVal [1] with host := [.command 0 none] }
    s.phase ≠ .idle ∧ s.phase ≠ .done ∧ s.phase ≠ .error ∧ s.host = .command 0 none :: [] ∧ ∃ t, step s = .next t :=
  ⟨by decide, by decide, by decide, rfl, _, rfl⟩

theorem witness_ScanFirstOpensTheRun :
    let s := at_ .encScan [0x21]
    s.phase = .encScan ∧ s.runOpen = false ∧ s.mem.src[s.mem.ipos]? = some 0x21 := by decide
theorem witness_ScanExtendLengthensTheRun :
    let s := scanning .A 0x57 254 [0x57]
    s.phase = .encScan ∧ s.runOpen = true ∧ 0x57 = s.cur ∧ s.runLen.toNat < 255 ∧ s.mem.src[s.mem.ipos]? = some 0x57 := by
  decide
theorem witness_ScanCapSplitsTheRun :
    let s := scanning .B 0xFF 255 [0xFF]
    s.phase = .encScan ∧ s.runOpen = true ∧ 0xFF = s.cur ∧ s.runLen = 255#8 ∧ s.mem.src[s.mem.ipos]? = some 0xFF := by
  decide
theorem witness_ScanBreakStartsANewRun :
    let s := scanning .A 0x41 255 [0x40]
    s.phase = .encScan ∧ s.runOpen = true ∧ (0x40 : Byte) ≠ s.cur ∧ s.mem.src[s.mem.ipos]? = some 0x40 := by decide
theorem witness_ScanEndFlushesTheRun :
    let s := scanning .B 0x41 1 []
    s.phase = .encScan ∧ s.mem.src[s.mem.ipos]? = none ∧ s.mem.ends = true := by decide
theorem witness_TokenOfAPair :
    1 ≤ (1 : Byte).toNat ∧ 1 ≤ (255 : Byte).toNat ∧ 2 ≤ (2 : Byte).toNat ∧ 2 ≤ (255 : Byte).toNat := by decide

theorem witness_TagSelectsTheDecoder :
    (at_ .decTag [0x21]).phase = .decTag ∧ (at_ .decTag [0x21]).mem.src[(at_ .decTag [0x21]).mem.ipos]? = some 0x21#8 ∧
    (at_ .decTag [0x8A]).phase = .decTag ∧ (at_ .decTag [0x8A]).mem.src[(at_ .decTag [0x8A]).mem.ipos]? = some 0x8A#8 := by
  decide
theorem witness_UnknownTagRaises :
    let s := at_ .decTag [0x20, 5]
    s.phase = .decTag ∧ 0x20 ≠ 0x21#8 ∧ 0x20 ≠ 0x8A#8 ∧ s.mem.src[s.mem.ipos]? = some 0x20 := by decide
theorem witness_MissingTagRaises :
    let s := at_ .decTag []
    s.phase = .decTag ∧ s.mem.src[s.mem.ipos]? = none ∧ s.mem.ends = true := by decide

theorem witness_DaCountLatchesTheCount :
    (at_ .decACnt [0]).phase = .decACnt ∧ (at_ .decACnt [0]).mem.src[(at_ .decACnt [0]).mem.ipos]? = some 0 := by decide
theorem witness_DaValueExpandsThePair :
    let s := { at_ .decAVal [0] with cnt := 255 }
    s.phase = .decAVal ∧ s.mem.src[s.mem.ipos]? = some 0 := by decide
theorem witness_EndAtTokenBoundaryCompletes :
    (at_ .decACnt []).phase = .decACnt ∧ (at_ .decACnt []).mem.src[(at_ .decACnt []).mem.ipos]? = none ∧
    (at_ .decACnt []).mem.ends = true ∧ (at_ .decBFirst []).phase = .decBFirst ∧ (at_ .decBFirst []).laValid = false ∧
    (at_ .decBFirst []).mem.src[(at_ .decBFirst []).mem.ipos]? = none ∧ (at_ .decBFirst []).mem.ends = true := by decide
theorem witness_TruncationRaises :
    (at_ .decAVal []).phase = .decAVal ∧ (at_ .decAVal []).mem.src[(at_ .decAVal []).mem.ipos]? = none ∧
    (at_ .decAVal []).mem.ends = true ∧ (at_ .decBCnt []).phase = .decBCnt ∧ (at_ .decBCnt []).laValid = false ∧
    (at_ .decBCnt []).mem.src[(at_ .decBCnt []).mem.ipos]? = none ∧ (at_ .decBCnt []).mem.ends = true := by decide

theorem witness_DbFirstLatchesTheByte :
    ({ at_ .decBFirst [] with laValid := true } : State).phase = .decBFirst ∧
    ({ at_ .decBFirst [] with laValid := true } : State).laValid = true ∧
    (at_ .decBFirst [5]).phase = .decBFirst ∧ (at_ .decBFirst [5]).laValid = false ∧
    (at_ .decBFirst [5]).mem.src[(at_ .decBFirst [5]).mem.ipos]? = some 5 := by decide
/-- Both forms of the read. -/
theorem witness_DbLitWritesAndPushesBack :
    (∃ t, (at_ .decBSecond [5]).phase = .decBSecond ∧ (5 : Byte) ≠ (at_ .decBSecond [5]).b1 ∧
      (at_ .decBSecond [5]).decRead = some (.byte 5, t)) ∧
    ∃ t, (5 : Byte) ≠ (at_ .decBSecond []).b1 ∧
      ({ at_ .decBSecond [] with laValid := true, laByte := 5 } : State).decRead = some (.byte 5, t) :=
  ⟨⟨_, rfl, by decide, rfl⟩, _, by decide, rfl⟩
theorem witness_DbPairAwaitsTheCount :
    ∃ t, (at_ .decBSecond [0]).phase = .decBSecond ∧ 0 = (at_ .decBSecond [0]).b1 ∧
      (at_ .decBSecond [0]).decRead = some (.byte 0, t) := ⟨_, rfl, rfl, rfl⟩
theorem witness_DbCountExpandsTheRun :
    (at_ .decBCnt [0, 9]).phase = .decBCnt ∧ (∃ t, (at_ .decBCnt [0, 9]).decRead = some (.byte 0, t)) ∧
    ∃ t, (at_ .decBCnt [255]).decRead = some (.byte 255, t) := ⟨rfl, ⟨_, rfl⟩, _, rfl⟩
theorem witness_DbEnd1WritesTheLastLiteral :
    let s := at_ .decBSecond []
    s.phase = .decBSecond ∧ s.laValid = false ∧ s.mem.src[s.mem.ipos]? = none ∧ s.mem.ends = true := by decide

/-- A whole pair, a half pair, and the wrong phase. -/
theorem witness_PairTokenExpands :
    ((at_ .decACnt [0, 7]).phase = .decACnt ∧
      (at_ .decACnt [0, 7]).mem.src.drop (at_ .decACnt [0, 7]).mem.ipos = 0 :: 7 :: []) ∧
    (¬ ∃ l, (at_ .decACnt [0]).mem.src.drop (at_ .decACnt [0]).mem.ipos = (0 : Byte) :: 7 :: l) ∧
    (at_ .decAVal [0, 7]).phase ≠ .decACnt :=
  ⟨⟨rfl, rfl⟩, fun ⟨_, h⟩ => by simp [at_, State.reset] at h, by decide⟩
theorem witness_LiteralTokenWritesOnce :
    (let s := at_ .decBFirst [1, 2]
     s.phase = .decBFirst ∧ s.laValid = false ∧ s.mem.src.drop s.mem.ipos = 1 :: 2 :: [] ∧ (2 : Byte) ≠ 1) ∧
    (let s := at_ .decBFirst [1]
     s.phase = .decBFirst ∧ s.laValid = false ∧ s.mem.src.drop s.mem.ipos = [1] ∧ s.mem.ends = true) ∧
    (let s := { at_ .decBFirst [2] with laValid := true }
     s.phase = .decBFirst ∧ s.laValid = true ∧ s.mem.src.drop s.mem.ipos = 2 :: [] ∧ (2 : Byte) ≠ s.laByte) ∧
    (let s := { at_ .decBFirst [] with laValid := true }
     s.phase = .decBFirst ∧ s.laValid = true ∧ s.mem.src.drop s.mem.ipos = [] ∧ s.mem.ends = true) := by decide
theorem witness_RunTokenExpands :
    (let s := at_ .decBFirst [1, 1, 0]
     s.phase = .decBFirst ∧ s.laValid = false ∧ s.mem.src.drop s.mem.ipos = 1 :: 1 :: 0 :: []) ∧
    (let s := { at_ .decBFirst [1, 255] with laValid := true, laByte := 1 }
     s.phase = .decBFirst ∧ s.laValid = true ∧ 1 = s.laByte ∧ s.mem.src.drop s.mem.ipos = 1 :: 255 :: []) := by decide
theorem witness_TokenStepIsSymbolSteps :
    let s := { at_ .decBFirst [1, 1, 2] with tokenGrain := true }
    s.host = [] ∧ s.tokenGrain = true ∧ ∃ t, step s = .next t := ⟨rfl, rfl, _, rfl⟩

/-- Selected, and not selected because the next symbol is another. -/
theorem witness_TransitionRunsExactlyWhereSelected :
    ((Instr.daCount 5).symbol? = some (.byte 5) ∧ (Instr.daCount 5).wf = true ∧
      admits (at_ .decACnt [5]).ctx (.daCount 5) = true ∧ (at_ .decACnt [5]).peek = some (.byte 5)) ∧
    (at_ .decACnt [6]).peek ≠ some (.byte 5) := by decide
/-- No act, a wait, a command held off; a symbol, and none; in token grain no whole token (a half pair), and one of each method. -/
theorem witness_StepRunsTheDecodedInstruction :
    ((at_ .decTag [0x21]).host = [] ∧ ({ at_ .decTag [] with host := [.wait] } : State).host = .wait :: [] ∧
      ({ at_ .decTag [] with host := [.command 0 none] } : State).cmdReady = false) ∧
    ((at_ .decTag [0x21]).tokenGrain = false ∧ (at_ .decTag [0x21]).peek = some (.byte 0x21) ∧
      decode (at_ .decTag [0x21]).ctx (.symbol (wordOfSymbol (.byte 0x21))) = .ok .tagA) ∧
    (at_ .done [1]).peek = none ∧
    ((∀ i, ¬ ({ at_ .decACnt [1] with tokenGrain := true } : State).WholeToken i) ∧
      ({ at_ .decACnt [1] with tokenGrain := true } : State).peek = some (.byte 1)) ∧
    ({ at_ .decACnt [1, 2, 3] with tokenGrain := true } : State).WholeToken (.aPair 1 2) ∧
    ({ at_ .decBFirst [1] with tokenGrain := true } : State).WholeToken (.bLit 1) :=
  ⟨⟨rfl, rfl, rfl⟩, ⟨rfl, rfl, rfl⟩, rfl,
    ⟨fun _ h => (by rcases h with ⟨-, r, h⟩ | ⟨h, -⟩ <;> cases h), rfl⟩, .inl ⟨rfl, _, rfl⟩, .inr ⟨rfl, .inl rfl, _, rfl⟩⟩
theorem witness_StepTakesThePresentedCommand :
    let s := { at_ .error [1] with host := [.command 0b11 none] }
    s.cmdReady = true ∧ decode s.ctx (.cmd 0b11) = .ok .dec ∧ s.host = .command 0b11 none :: [] ∧
    ({ s with host := [.command 0b11 (some ⟨[], false⟩)] } : State).host = .command 0b11 (some ⟨[], false⟩) :: [] :=
  ⟨rfl, rfl, rfl, rfl⟩
/-- One word of each level. -/
theorem witness_PlacedWordRuns : decodeTableWord 8 3 = some .dec ∧ decodeTableWord 16 0x1FF = some .tagEoi ∧
    decodeTableWord 24 0xFF0000 = some (.bRun 0 255) := by decide
theorem witness_ResetAbortsAndKeepsTheStreams :
    ({ at_ .decBCnt [1] with host := [.reset] } : State).host = .reset :: [] := rfl

theorem witness_StatusShowsPhaseAndError : (State.reset.err ≠ .none ↔ State.reset.phase = .error) := by decide

/-- An open run at the cap: every clause of the invariants has something to say. -/
theorem witness_StepKeepsTheInvariant :
    (scanning .B 0x41 255 [0x41]).Inv ∧ ∃ t, step (scanning .B 0x41 255 [0x41]) = .next t :=
  ⟨⟨fun _ => ⟨rfl, by decide⟩, fun h => (by cases h), by decide, fun h => (by cases h), by decide⟩, _, rfl⟩
/-- The middle of a decode of `8A 41 42`: one literal written, the next byte pushed back. -/
theorem witness_StepKeepsProgress :
    let s := { at_ .decBFirst [0x8A, 0x41, 0x42] with
      method := .B, laValid := true, laByte := 0x42
      mem := { src := [0x8A, 0x41, 0x42], ends := true, ipos := 3, eoiTaken := false, sink := [0x41], base := 0 } }
    s.Inv ∧ s.Progress ∧ ∃ t, step s = .next t :=
  ⟨⟨fun h => (by cases h), fun _ => rfl, by decide, fun h => (by cases h), by decide⟩,
    show decodeStream _ = _ from rfl, _, rfl⟩
theorem witness_ErrorIsLeftByCommandOrResetOnly :
    let s := { at_ .error [1] with err := .malformedStream, host := [.wait] }
    (∃ t, step s = .next t) ∧ s.phase = .error ∧ (∀ w o l, s.host ≠ .command w o :: l) ∧ (∀ l, s.host ≠ .reset :: l) ∧
      s.Inv ∧ s.err ≠ .none :=
  ⟨⟨_, rfl⟩, rfl, fun _ _ _ h => (by cases h), fun _ h => (by cases h),
    ⟨fun h => (by cases h), fun h => (by cases h), by decide, fun h => (by cases h), by decide⟩, by decide⟩
theorem witness_ExactlyFourTransitionsRaise :
    ∃ t, exec .daTrunc (at_ .decAVal []) = .next t ∧ (at_ .decAVal []).phase ≠ .error ∧ t.phase = .error :=
  ⟨_, rfl, by decide, rfl⟩
theorem witness_TransitionsLowerTheMeasure :
    (at_ .decBSecond [5]).Inv ∧ (Instr.dbLit 5).symbol? = some (.byte 5) ∧
      ∃ t, exec (.dbLit 5) (at_ .decBSecond [5]) = .next t :=
  ⟨⟨fun h => (by cases h), fun h => (by cases h), by decide, fun h => (by cases h), by decide⟩, rfl, _, rfl⟩
/-- Two states that differ in every register without a value. -/
theorem witness_ValuelessRegistersAreNeverRead :
    (at_ .decTag [0x21]).SameLive
      { at_ .decTag [0x21] with method := .B, cur := 1, runLen := 2, cnt := 3, b1 := 4, laByte := 5 } ∧
    (∃ u, step (at_ .decTag [0x21]) = .next u) ∧
    ∃ u, step { at_ .decTag [0x21] with method := .B, cur := 1, runLen := 2, cnt := 3, b1 := 4, laByte := 5 } = .next u :=
  ⟨⟨rfl, rfl, rfl, rfl, rfl, rfl, rfl, fun _ h => absurd rfl h, fun h => (by cases h), fun h => (by cases h),
    fun h => (by cases h), fun h => (by rcases h with h | h <;> cases h), fun h => by cases h⟩, ⟨_, rfl⟩, _, rfl⟩

/-- From `ERROR`, with the leftover of the last input (R167) and with a stream of its own. -/
theorem witness_MachineEncodes :
    let s := { at_ .error [1, 2, 3] with
      mem := { State.reset.mem with src := [1, 2, 3], ipos := 1 }, host := [.command 0b01 none, .wait] }
    s.cmdReady = true ∧ s.host = .command 0b01 none :: [.wait] ∧ Quiet [.wait] ∧ (s.attach none).mem.rest = [2, 3] ∧
      (s.attach none).mem.ends = true ∧ (s.attach (some ⟨[], true⟩)).mem.rest = [] ∧
      (s.attach (some ⟨[], true⟩)).mem.ends = true :=
  ⟨rfl, rfl, fun e h => by simpa using h, rfl, rfl, rfl, rfl⟩
theorem witness_MachineDecodes :
    let s := { at_ .done [] with host := [.command 0b11 (some ⟨[0x8A, 1], true⟩)] }
    (0b11#2).getLsbD 1 = true ∧ s.cmdReady = true ∧ s.host = .command 0b11 (some ⟨[0x8A, 1], true⟩) :: [] ∧ Quiet [] ∧
      (s.attach (some ⟨[0x8A, 1], true⟩)).mem.rest = [0x8A, 1] ∧ (s.attach (some ⟨[0x8A, 1], true⟩)).mem.ends = true ∧
      2 * [0x8A, (1 : Byte)].length + 3 ≤ 7 :=
  ⟨rfl, rfl, rfl, fun _ h => (by cases h), rfl, rfl, by decide⟩
theorem witness_MethodBPassesThrough :
    ∀ (i : Nat) (a b : Byte), [0x41#8, 0x42#8, 0x43#8][i]? = some a → [0x41#8, 0x42#8, 0x43#8][i + 1]? = some b → a ≠ b := by
  rintro (_ | _ | _ | i) a b ha hb <;> simp_all
  all_goals (subst ha; subst hb; decide)
theorem witness_MalformedInputIsRejected :
    (0x20 : Byte) ≠ 0x21#8 ∧ (0x20 : Byte) ≠ 0x8A#8 ∧ [0x41#8, 0x41].getLast? ≠ some 0x42 ∧ [].getLast? ≠ some 0x42#8 := by
  decide

/-- A command, a symbol with the core in its invariant, the pushed-back byte, and none of them. -/
theorem witness_PortEdgeIsOneAbstractStep :
    (let i : PinsIn := ⟨false, true, 0, true, false, 5, true⟩
     i.rst = false ∧ i.cmdValid = true ∧ i.inValid = true ∧
      (⟨at_ .done [], [], 0⟩ : Ports).cmdReady = true ∧ (⟨at_ .decACnt [], [], 1⟩ : Ports).inReady = true ∧
      (at_ .done []).host = [] ∧ (at_ .done []).tokenGrain = false ∧
      (at_ .decACnt []).host = [] ∧ (at_ .decACnt []).tokenGrain = false) ∧
    (at_ .decACnt []).Inv ∧
    (let p : Ports := ⟨{ at_ .decBFirst [] with laValid := true }, [], 1⟩
     p.core.host = [] ∧ p.core.tokenGrain = false ∧ p.outValid = false ∧ p.core.phase = .decBFirst ∧ p.core.laValid = true) ∧
    (let p : Ports := ⟨at_ .decBFirst [], [1], 1⟩
     p.cmdReady = false ∧ p.inReady = false ∧ p.outValid = true) :=
  ⟨by decide, ⟨fun h => (by cases h), fun h => (by cases h), by decide, fun h => (by cases h), by decide⟩,
    by decide, by decide⟩
theorem witness_OutputIsTransferredInOrder :
    (⟨at_ .decACnt [], [1, 2], 0b0001⟩ : Ports).pend = 1 :: [2] ∧
    (⟨false, true, 0, true, false, 5, true⟩ : PinsIn).rst = false ∧ (⟨true, true, 0, true, false, 5, true⟩ : PinsIn).rst = true ∧
    (⟨false, true, 0, true, false, 5, true⟩ : PinsIn).outReady = true ∧
    (⟨false, true, 0, true, false, 5, false⟩ : PinsIn).outReady = false := by decide
/-- The last byte of a transfer pending, nothing pending, and the tag byte of a command pending. -/
theorem witness_StreamsAreReleasedWhenNotBusy :
    (⟨at_ .done [], [1], 0b0001⟩ : Ports).Inv ∧ (⟨at_ .done [], [1], 0b0001⟩ : Ports).status.getLsbD 0 = true ∧
    (⟨at_ .done [], [], 0⟩ : Ports).Inv ∧ (⟨at_ .done [], [], 0⟩ : Ports).status.getLsbD 0 = false ∧
    (⟨at_ .encScan [], [0x21], 0b0010⟩ : Ports).Inv ∧ (⟨at_ .encScan [], [0x21], 0b0010⟩ : Ports).status.getLsbD 0 = false :=
  ⟨fun _ => .inl rfl, rfl, fun h => absurd rfl h, rfl, fun _ => .inr ⟨rfl, rfl⟩, rfl⟩

end Sys2Proof.Tests
end

section
/-! PROOF. What reset leaves (R25) and what `STATUS` shows (R20, R59). -/

namespace Sys2Proof.Machine

variable {s : State}

/-! ## The three fields of `STATUS` -/

theorem isDone_iff : s.isDone = true ↔ s.phase = .done := by simp [State.isDone]

theorem busy_iff : s.busy = true ↔ s.phase ≠ .idle ∧ s.phase ≠ .done ∧ s.phase ≠ .error := by
  rw [busy_eq_not_cmdReady, Bool.not_eq_true', ← Bool.not_eq_true, cmdReady_iff]
  simp only [not_or, ne_eq]

@[simp] theorem errCode_eq_zero_iff {e : Err} : errCode e = 0#2 ↔ e = .none := by
  cases e <;> simp [errCode]

/-- The high two bits of `STATUS` are `st_err`. -/
theorem status_err_bits : s.status.extractLsb' 2 2 = errCode s.err := by
  unfold State.status
  cases s.busy <;> cases s.isDone <;> cases s.err <;> rfl

/-- Bit 1 of `STATUS` is `st_done`. -/
theorem status_done_bit : s.status.getLsbD 1 = s.isDone := by
  unfold State.status
  cases s.busy <;> cases s.isDone <;> cases s.err <;> rfl

/-- `STATUS` is 0 where all three fields are. -/
theorem status_eq_zero_iff : s.status = 0#4 ↔ s.err = .none ∧ s.isDone = false ∧ s.busy = false := by
  unfold State.status
  cases s.busy <;> cases s.isDone <;> cases s.err <;> decide

/-- No error, not done and not running leaves `IDLE` only, where `err` and `phase` agree (R23 item 3). -/
theorem status_eq_zero_iff_idle (h : s.err ≠ .none ↔ s.phase = .error) : s.status = 0#4 ↔ s.phase = .idle := by
  have herr : s.err = .none ↔ s.phase ≠ .error := (not_iff_comm.mp h).symm
  rw [status_eq_zero_iff, herr, ← Bool.not_eq_true, isDone_iff, ← Bool.not_eq_true, busy_iff]
  cases s.phase <;> decide

/-! ## Reset -/

@[simp] theorem applyReset_busy : s.applyReset.busy = false := rfl

@[simp] theorem applyReset_cmdReady : s.applyReset.cmdReady = true := cmdReady_iff.mpr (.inl s.applyReset_phase)

@[simp] theorem applyReset_status : s.applyReset.status = 0#4 :=
  status_eq_zero_iff.mpr ⟨s.applyReset_err, rfl, applyReset_busy⟩

@[simp] theorem reset_applyReset : State.reset.applyReset = State.reset := rfl

/-- Settles O40: each register by its reset rule, the ports from the core not being busy with nothing pending. -/
theorem resetValues : Obligations.ResetValues := by
  refine ⟨reset_applyReset, fun s => ⟨s.applyReset_phase, s.applyReset_err, s.applyReset_runOpen, s.applyReset_laValid,
    applyReset_status, ?inReady, rfl, ?cmdReady, rfl, rfl, rfl⟩⟩
  case inReady => simp [Ports.inReady]
  case cmdReady => simp [Ports.cmdReady]

/-- Settles O41: each field of `STATUS` is its own function of `err` or `phase`; that these are 0 in `IDLE` only needs R23 item 3. -/
theorem statusShowsPhaseAndError : Obligations.StatusShowsPhaseAndError := by
  intro s
  refine ⟨?errField, ?doneBit, ?busyBit, fun h => ⟨?errorShown, status_eq_zero_iff_idle h⟩⟩
  case errField => rw [status_err_bits]; cases s.err <;> rfl
  case doneBit => rw [status_done_bit, isDone_iff]
  case busyBit => rw [status_busy_bit, busy_iff]
  case errorShown => rw [status_err_bits, ← h, ne_eq, errCode_eq_zero_iff]

end Sys2Proof.Machine
end

section
/-! PROOF. The reads of the input: the end of input is returned again and again (R31), the pushed-back byte comes first (R33). -/

namespace Sys2Proof.Machine

variable {s t : State}

/-- The end of input sticks: the read that returned `EOI` changed nothing a later read looks at. -/
theorem inRead_eoi_again (h : s.inRead = some (.eoi, t)) : t.inRead = some (.eoi, t) := by
  obtain ⟨_, hbyte, -, -⟩ | ⟨-, hnone, hends, rfl⟩ := inRead_cases h
  · cases hbyte
  · exact inRead_eoi hnone hends

theorem decRead_buffered (h : s.laValid = true) : s.decRead = some (.byte s.laByte, { s with laValid := false }) := by
  simp [State.decRead, h]

theorem decRead_unbuffered (h : s.laValid = false) : s.decRead = s.inRead := by
  simp [State.decRead, h]

/-- Reading back what was pushed onto an empty buffer leaves `la_byte` as the one trace of the push. -/
theorem decRead_after_unread {b : Byte} (h : s.laValid = false) :
    ({ s with laByte := b, laValid := true } : State).decRead = some (.byte b, { s with laByte := b }) := by
  simp [decRead_buffered, ← h]

/-- Settles O6: the byte, the end of input, and the end of input again. -/
theorem inReadTakesNextByteOrEoi : Obligations.InReadTakesNextByteOrEoi :=
  ⟨fun _ _ => inRead_byte, fun _ => inRead_eoi, fun _ _ => inRead_eoi_again⟩

/-- Settles O7: the two branches of `DecRead`, and `Unread` on an empty buffer followed by the first of them. -/
theorem pushbackReturnsTheByteFirst : Obligations.PushbackReturnsTheByteFirst :=
  ⟨fun _ => decRead_buffered, fun _ => decRead_unbuffered, fun _ _ h =>
    ⟨_, unread_empty h, rfl, rfl, rfl, decRead_after_unread h⟩⟩

end Sys2Proof.Machine
end

section
/-! PROOF. The two parts of an input symbol's word (R57), and the tag row of the step selection (R51, R62). -/

namespace Sys2Proof

/-- The word `{in_eoi, in_data}`: `in_eoi` alone tells the end from a byte, and `in_data` is looked at for a byte only (R57). -/
theorem symbolOfWord_append (e : BitVec 1) (d : Byte) :
    symbolOfWord (e ++ d) = if e.getLsbD 0 then .eoi else .byte d := by
  have heoi : (e ++ d).getLsbD 8 = e.getLsbD 0 := BitVec.getLsbD_append
  have hdata : (e ++ d).setWidth 8 = d := BitVec.setWidth_append_eq_right
  rw [symbolOfWord, heoi, hdata]

@[simp] theorem symbolOfWord_byte (b : Byte) : symbolOfWord (0#1 ++ b) = .byte b := symbolOfWord_append 0#1 b

@[simp] theorem symbolOfWord_eoi (d : Byte) : symbolOfWord (1#1 ++ d) = .eoi := symbolOfWord_append 1#1 d

/-- In `DEC_TAG` the phase selects the tag decoder; no other part of the context is looked at. -/
theorem decodeSymbol_decTag {c : Ctx} (h : c.phase = .decTag) (x : Symbol) : decodeSymbol c x = .ok (decodeTag x) := by
  simp only [decodeSymbol, h]

/-- Settles O4: `in_eoi` tells a byte from the end, and in `DEC_TAG` the byte that is left is compared with the two tags. -/
theorem symbolsAndTagsAreTotal : Obligations.SymbolsAndTagsAreTotal := by
  refine ⟨fun b d => ⟨symbolOfWord_byte b, symbolOfWord_eoi d⟩, fun c t h => ?tagRow⟩
  case tagRow =>
    calc decode c (.symbol (0#1 ++ t))
      _ = decodeSymbol c (.byte t) := congrArg (decodeSymbol c) (symbolOfWord_byte t)
      _ = .ok (decodeTag (.byte t)) := decodeSymbol_decTag h _

end Sys2Proof
end

section
/-! PROOF. The run-boundary detector (R71 to R75). Each transition is selected by its state condition and the symbol read, and its
result is its effect on the state after that read. -/

namespace Sys2Proof.Machine

variable {s : State} {p : Phase} {c : Bool} {eff : State → Host.Outcome State Fault Refusal}

/-! ## A transition whose read is `InRead` -/

/-- In a phase whose read is `InRead` (R62), a step reads the source and never the pushback buffer. -/
theorem read_eq_inRead (hk : readKind s.phase = .inRead) : s.read = s.inRead := by
  simp only [State.read, hk]

/-- A row for a byte, with that byte next: its effect on the state one byte further. -/
theorem onSymbol_inRead_byte {b : Byte} (hk : readKind p = .inRead) (hp : s.phase = p) (hc : c = true)
    (hb : s.mem.src[s.mem.ipos]? = some b) :
    onSymbol p (.byte b) c s eff = eff { s with mem := { s.mem with ipos := s.mem.ipos + 1 } } :=
  onSymbol_selected hp hc ((read_eq_inRead (hp ▸ hk)).trans (inRead_byte hb))

/-- A row for the end of input, with the source at its end: its effect on the state that has taken `EOI`. -/
theorem onSymbol_inRead_eoi (hk : readKind p = .inRead) (hp : s.phase = p) (hc : c = true)
    (hnone : s.mem.src[s.mem.ipos]? = none) (hends : s.mem.ends = true) :
    onSymbol p .eoi c s eff = eff { s with mem := { s.mem with eoiTaken := true } } :=
  onSymbol_selected hp hc ((read_eq_inRead (hp ▸ hk)).trans (inRead_eoi hnone hends))

/-! ## The five transitions -/

/-- Settles O12: without an open run, the row of a byte is `SCAN.FIRST`. -/
theorem scanFirstOpensTheRun : Obligations.ScanFirstOpensTheRun := by
  intro s b hphase hclosed hbyte
  have hsel : (!s.runOpen) = true := by simp [hclosed]
  exact onSymbol_inRead_byte rfl hphase hsel hbyte

/-- Settles O13: the cap keeps the lengthened run within a byte (R76). -/
theorem scanExtendLengthensTheRun : Obligations.ScanExtendLengthensTheRun := by
  intro s b hphase hopen hsame hshort hbyte
  have hsel : (s.runOpen && b == s.cur && decide (s.runLen.toNat < Config.runCap.toNat)) = true := by
    simpa [hopen, hsame, Config.runCap] using hshort
  refine ⟨onSymbol_inRead_byte rfl hphase hsel hbyte, ?noWrap⟩
  case noWrap => exact BitVec.toNat_add_of_lt (Nat.succ_lt_succ hshort)

/-- Settles O14: the token is that of the full run, since `run_len` is the cap. -/
theorem scanCapSplitsTheRun : Obligations.ScanCapSplitsTheRun := by
  intro s b hphase hopen hsame hfull hbyte
  have hsel : (s.runOpen && b == s.cur && s.runLen == Config.runCap) = true := by
    simp [hopen, hsame, hfull, Config.runCap]
  exact onSymbol_inRead_byte rfl hphase hsel hbyte

/-- Settles O15: the row asks for another byte and not for a length, so a full run is reported like any other. -/
theorem scanBreakStartsANewRun : Obligations.ScanBreakStartsANewRun := by
  intro s b hphase hopen hother hbyte
  have hsel : (s.runOpen && b != s.cur) = true := by simp [hopen, hother]
  exact onSymbol_inRead_byte rfl hphase hsel hbyte

/-- Settles O16: the row has no state condition; whether a run is open decides the token only. -/
theorem scanEndFlushesTheRun : Obligations.ScanEndFlushesTheRun := by
  intro s hphase hnone hends
  exact onSymbol_inRead_eoi rfl hphase rfl hnone hends

end Sys2Proof.Machine
end

section
/-! PROOF. The token of a pair (R80, R90, R91). -/

namespace Sys2Proof.Machine

/-- A Method-A token is the count and the value, whatever the count but 0 (R80). -/
theorem tok_A {n : Byte} (h : n ≠ 0) (v : Byte) : tok .A v n = [n, v] := by
  simp only [tok, if_neg h]

/-- A Method-B token of length 1 is the literal (R90). -/
@[simp] theorem tok_B_one (v : Byte) : tok .B v 1 = [v] := rfl

/-- A Method-B token of any other length but 0 is the run marker and the count (R91). -/
theorem tok_B_run {n : Byte} (h0 : n ≠ 0) (h1 : n ≠ 1) (v : Byte) : tok .B v n = [v, v, n] := by
  simp only [tok, if_neg h0, if_neg h1]

/-- Settles O17: a length from 1 is not the free value at 0, and a length from 2 is not the literal either. -/
theorem tokenOfAPair : Obligations.TokenOfAPair := by
  intro v n
  have h0 : 1 ≤ n.toNat → n ≠ 0 := by rintro hpos rfl; exact absurd hpos (by decide)
  have h1 : 2 ≤ n.toNat → n ≠ 1 := by rintro hrun rfl; exact absurd hrun (by decide)
  refine ⟨fun hpos => ?pairA, tok_B_one v, fun hrun => ?runB⟩
  case pairA => exact tok_A (h0 hpos) v
  case runB => exact tok_B_run (h0 (Nat.le_of_succ_le hrun)) (h1 hrun) v

end Sys2Proof.Machine
end

section
/-! PROOF. The Method-A decoder (R81 to R84), and the two ends of input a Method-B decode shares with it (R96, R98). No row here has
a state condition: the phase and the symbol read select it. -/

namespace Sys2Proof.Machine

variable {s : State} {p : Phase} {c : Bool} {eff : State → Host.Outcome State Fault Refusal}

/-! ## A transition whose read is `DecRead`, with the pushback buffer empty -/

/-- In a phase whose read is `DecRead` (R62), a step reads the source while no byte is pushed back (R33). -/
theorem read_eq_inRead_of_unbuffered (hk : readKind s.phase = .decRead) (hempty : s.laValid = false) :
    s.read = s.inRead := by
  simp only [State.read, hk, decRead_unbuffered hempty]

/-- A row for the end of input, with nothing pushed back and the source at its end: its effect on the state that has taken `EOI`. -/
theorem onSymbol_decRead_eoi (hk : readKind p = .decRead) (hp : s.phase = p) (hc : c = true) (hempty : s.laValid = false)
    (hnone : s.mem.src[s.mem.ipos]? = none) (hends : s.mem.ends = true) :
    onSymbol p .eoi c s eff = eff { s with mem := { s.mem with eoiTaken := true } } :=
  onSymbol_selected hp hc ((read_eq_inRead_of_unbuffered (hp ▸ hk) hempty).trans (inRead_eoi hnone hends))

/-! ## The transitions -/

/-- Settles O21: the row asks nothing of the byte, so a count of 0 is latched like any other. -/
theorem daCountLatchesTheCount : Obligations.DaCountLatchesTheCount := by
  intro s c hphase hbyte
  exact onSymbol_inRead_byte rfl hphase rfl hbyte

/-- Settles O22: the read leaves `cnt` alone, so the copies are of the count latched before. -/
theorem daValueExpandsThePair : Obligations.DaValueExpandsThePair := by
  intro s v hphase hbyte
  exact onSymbol_inRead_byte rfl hphase rfl hbyte

/-- Settles O23: the source is at its end for `DA.END`; for `DB.END0` nothing may be pushed back either. -/
theorem endAtTokenBoundaryCompletes : Obligations.EndAtTokenBoundaryCompletes := by
  refine ⟨fun s hphase hnone hends => ?daEnd, fun s hphase hempty hnone hends => ?dbEnd0⟩
  case daEnd => exact onSymbol_inRead_eoi rfl hphase rfl hnone hends
  case dbEnd0 => exact onSymbol_decRead_eoi rfl hphase rfl hempty hnone hends

/-- Settles O24: as at a token boundary, with `raise MalformedStream` as the effect of both rows. -/
theorem truncationRaises : Obligations.TruncationRaises := by
  refine ⟨fun s hphase hnone hends => ?daTrunc, fun s hphase hempty hnone hends => ?dbTrunc⟩
  case daTrunc => exact onSymbol_inRead_eoi rfl hphase rfl hnone hends
  case dbTrunc => exact onSymbol_decRead_eoi rfl hphase rfl hempty hnone hends

end Sys2Proof.Machine
end

section
/-! PROOF. The Method-B decoder (R92 to R95, R97). Every row reads with `DecRead`, so one lemma serves the pushed-back byte and the
source. -/

namespace Sys2Proof.Machine

variable {s t : State} {x : Symbol} {p : Phase} {c : Bool} {eff : State → Host.Outcome State Fault Refusal}

/-! ## A transition whose read is `DecRead` -/

/-- In a phase whose read is `DecRead` (R62), a step looks into the pushback buffer before the source. -/
theorem read_eq_decRead (hk : readKind s.phase = .decRead) : s.read = s.decRead := by
  simp only [State.read, hk]

/-- A row for the symbol that `DecRead` returns: its effect on the state after that read. -/
theorem onSymbol_decRead (hk : readKind p = .decRead) (hp : s.phase = p) (hc : c = true) (hr : s.decRead = some (x, t)) :
    onSymbol p x c s eff = eff t :=
  onSymbol_selected hp hc ((read_eq_decRead (hp ▸ hk)).trans hr)

/-- `DecRead` clears the pushback flag or moves on in the source; the byte held and the output stay. -/
theorem decRead_keeps_b1_sink (hr : s.decRead = some (x, t)) : t.b1 = s.b1 ∧ t.mem.sink = s.mem.sink := by
  obtain ⟨-, -, rfl⟩ | ⟨-, hin⟩ := decRead_cases hr
  · exact ⟨rfl, rfl⟩
  · obtain ⟨_, -, -, rfl⟩ | ⟨-, -, -, rfl⟩ := inRead_cases hin <;> exact ⟨rfl, rfl⟩

/-! ## The transitions -/

/-- Settles O25: the two forms of the read; `b1` takes the byte whichever of them returns it. -/
theorem dbFirstLatchesTheByte : Obligations.DbFirstLatchesTheByte := by
  refine ⟨fun s hphase hfull => ?buffered, fun s b hphase hempty hbyte => ?source⟩
  case buffered => exact onSymbol_decRead rfl hphase rfl (decRead_buffered hfull)
  case source => exact onSymbol_decRead rfl hphase rfl ((decRead_unbuffered hempty).trans (inRead_byte hbyte))

/-- Settles O26: `Unread` meets its precondition, since `DecRead` has just emptied the buffer (R23 item 2). -/
theorem dbLitWritesAndPushesBack : Obligations.DbLitWritesAndPushesBack := by
  intro s t b hphase hother hread
  refine ⟨?nextState, (decRead_keeps_b1_sink hread).2⟩
  case nextState =>
    have hsel : (b != s.b1) = true := bne_iff_ne.mpr hother
    have hlit : exec (.dbLit b) s = ({ t with phase := .decBFirst }.outWrite [s.b1]).unread b :=
      onSymbol_decRead rfl hphase hsel hread
    have hempty : ({ t with phase := .decBFirst }.outWrite [s.b1]).laValid = false := by
      simpa using decRead_empties hread
    exact hlit.trans (unread_empty hempty)

/-- Settles O27: the row only turns the phase; the rest is the frame of the read. -/
theorem dbPairAwaitsTheCount : Obligations.DbPairAwaitsTheCount := by
  intro s t b hphase hsame hread
  have hsel : (b == s.b1) = true := beq_iff_eq.mpr hsame
  exact ⟨onSymbol_decRead rfl hphase hsel hread, decRead_keeps_b1_sink hread⟩

/-- Settles O28: the row asks nothing of the count, so 1 and 0 expand like any other. -/
theorem dbCountExpandsTheRun : Obligations.DbCountExpandsTheRun := by
  intro s t c hphase hread
  exact ⟨onSymbol_decRead rfl hphase rfl hread, (decRead_keeps_b1_sink hread).2⟩

/-- Settles O29: with nothing pushed back and the source at its end, the byte held is the last literal. -/
theorem dbEnd1WritesTheLastLiteral : Obligations.DbEnd1WritesTheLastLiteral := by
  intro s hphase hempty hnone hends
  exact onSymbol_decRead_eoi rfl hphase rfl hempty hnone hends

end Sys2Proof.Machine
end

section
/-! PROOF. The framing tag dispatcher on a first byte (R109 to R111). Its phase reads with `InRead`, so the tag is the next byte of
the source whatever the pushback buffer holds. -/

namespace Sys2Proof.Machine

/-- Settles O18: the rows of the two tags have no state condition, and their effects are on the state one byte further. -/
theorem tagSelectsTheDecoder : Obligations.TagSelectsTheDecoder := by
  refine fun s hphase => ⟨fun hbyte => ?tagA, fun hbyte => ?tagB⟩
  case tagA => exact onSymbol_inRead_byte rfl hphase rfl hbyte
  case tagB => exact onSymbol_inRead_byte rfl hphase rfl hbyte

/-- Settles O19: the row asks for a byte that is neither tag; raising the error writes nothing, so the one byte read is all that
has moved (R147). -/
theorem unknownTagRaises : Obligations.UnknownTagRaises := by
  intro s t hphase hnotA hnotB hbyte
  have hsel : (t != tagByte .A && t != tagByte .B) = true := by
    simp [hnotA, hnotB, tagByte, Config.tagA, Config.tagB]
  exact onSymbol_inRead_byte rfl hphase hsel hbyte

end Sys2Proof.Machine
end

section
/-! PROOF. Lists read run by run and pair by pair (R70, R120, R121): the two inductions the whole-stream functions follow, and the
first byte and the adjacent elements their cases speak of. -/

namespace Sys2Proof.Machine

theorem head?_rep_append {n : Nat} (h : 1 ≤ n) (v : Byte) (l : List Byte) : (rep n v ++ l).head? = some v := by
  obtain ⟨k, rfl⟩ := Nat.exists_eq_add_of_le' h
  rfl

/-- Positions `i` and `i + 1` are what a chain relates; the obligations write it with optional lookups. -/
theorem isChain_iff_getElem?_succ {α : Type} {R : α → α → Prop} {l : List α} :
    (∀ (i : Nat) (a b : α), l[i]? = some a → l[i + 1]? = some b → R a b) ↔ l.IsChain R := by
  rw [List.isChain_iff_getElem]
  constructor
  · intro h i hi
    exact h i _ _ (List.getElem?_eq_getElem (Nat.lt_of_succ_lt hi)) (List.getElem?_eq_getElem hi)
  · intro h i a b ha hb
    obtain ⟨_, rfl⟩ := List.getElem?_eq_some_iff.mp ha
    obtain ⟨hi, rfl⟩ := List.getElem?_eq_some_iff.mp hb
    exact h i hi

/-- Induction along the maximal runs of a list: a run in front of a list that does not go on with its byte. -/
theorem run_induction {P : List Byte → Prop} (nil : P [])
    (run : ∀ v n l, l.head? ≠ some v → P l → P (rep (n + 1) v ++ l)) (l : List Byte) : P l := by
  induction hlen : l.length using Nat.strong_induction_on generalizing l with
  | _ len ih =>
    cases l with
    | nil => exact nil
    | cons v l =>
      obtain ⟨k, r, rfl, hr⟩ := exists_rep_append v l
      have hshort : r.length < len := by
        rw [← hlen, List.length_cons, List.length_append]
        omega
      exact run v k r hr (ih _ hshort r rfl)

/-- Induction along the pairs a list is reported as: a run up to the cap that ends there, or a full pair its own byte follows. -/
theorem pair_induction {P : List Byte → Prop} (nil : P [])
    (last : ∀ v n l, 1 ≤ n → n ≤ 255 → l.head? ≠ some v → P l → P (rep n v ++ l))
    (full : ∀ v l, P (v :: l) → P (rep 255 v ++ v :: l)) (l : List Byte) : P l := by
  induction l using run_induction with
  | nil => exact nil
  | run v n l hl ihl =>
    induction n using Nat.strong_induction_on with
    | _ n ih =>
      by_cases hn : n + 1 ≤ 255
      · exact last v (n + 1) l (Nat.le_add_left 1 n) hn hl ihl
      · obtain ⟨k, rfl⟩ : ∃ k, n = 255 + k := Nat.exists_eq_add_of_le (by omega)
        have hcut : rep (255 + k + 1) v ++ l = rep 255 v ++ v :: (rep k v ++ l) := by
          rw [Nat.add_assoc, rep_add, List.append_assoc, rep_succ k, List.cons_append]
        rw [hcut]
        exact full v (rep k v ++ l) (ih k (by omega))

end Sys2Proof.Machine
end

section
/-! PROOF. Decoding an encoding (R126), the framing of a container (R127, R130), and the inputs Method-B leaves as they are (R129).
A decoder undoes one pair of its payload at a time. -/

namespace Sys2Proof.Machine

/-- A count up to the cap survives its byte. -/
theorem toNat_ofNat_count {n : Nat} (h : n ≤ 255) : (BitVec.ofNat 8 n).toNat = n := by
  rw [BitVec.toNat_ofNat]
  exact Nat.mod_eq_of_lt (Nat.lt_succ_of_le h)

/-! ## Method A -/

theorem decA_pairBytes {n : Nat} (h : n ≤ 255) (v : Byte) (p : List Byte) :
    decA (pairBytes .A (v, n) ++ p) = after (rep n v) (decA p) := by
  calc decA (pairBytes .A (v, n) ++ p)
    _ = after (rep (BitVec.ofNat 8 n).toNat v) (decA p) := decA_pair _ v p
    _ = after (rep n v) (decA p) := by rw [toNat_ofNat_count h]

theorem decA_payload (l : List Byte) : decA (payload .A l) = (.done, l) := by
  induction l using pair_induction with
  | nil => rfl
  | last v n l hpos hcap hl ih =>
    rw [payload_rep_append .A v l hl n hpos hcap, decA_pairBytes hcap, ih]
    rfl
  | full v l ih =>
    rw [payload_full_append, decA_pairBytes le_rfl, ih]
    rfl

/-! ## Method B -/

theorem head?_pairBytes_B (v : Byte) (n : Nat) (p : List Byte) : (pairBytes .B (v, n) ++ p).head? = some v := by
  by_cases hn : n = 1 <;> simp [pairBytes, hn]

/-- A Method-B payload begins with the first byte of its input, so a literal is never read as the first half of a run marker. -/
theorem head?_payload_B (l : List Byte) : (payload .B l).head? = l.head? := by
  cases l using pair_induction with
  | nil => rfl
  | last v n l hpos hcap hl =>
    rw [payload_rep_append .B v l hl n hpos hcap, head?_pairBytes_B, head?_rep_append hpos]
  | full v l => rw [payload_full_append, head?_pairBytes_B, head?_rep_append (by decide)]

theorem decB_literal {v : Byte} {p : List Byte} (h : p.head? ≠ some v) : decB (v :: p) = after [v] (decB p) := by
  cases p with
  | nil => rfl
  | cons w p => exact decB_lit v w p (by simpa using h)

/-- A Method-B pair is undone if its byte does not follow a literal. -/
theorem decB_pairBytes {v : Byte} {n : Nat} {p : List Byte} (h : n ≤ 255) (hlit : n = 1 → p.head? ≠ some v) :
    decB (pairBytes .B (v, n) ++ p) = after (rep n v) (decB p) := by
  by_cases hn : n = 1
  case pos =>
    subst hn
    exact decB_literal (hlit rfl)
  case neg =>
    rw [pairBytes, if_neg hn]
    exact (decB_run v _ p).trans (by rw [toNat_ofNat_count h])

theorem decB_payload (l : List Byte) : decB (payload .B l) = (.done, l) := by
  induction l using pair_induction with
  | nil => rfl
  | last v n l hpos hcap hl ih =>
    have hnext : (payload .B l).head? ≠ some v := by rwa [head?_payload_B]
    rw [payload_rep_append .B v l hl n hpos hcap, decB_pairBytes hcap fun _ => hnext, ih]
    rfl
  | full v l ih =>
    rw [payload_full_append, decB_pairBytes le_rfl (absurd · (by decide)), ih]
    rfl

/-! ## The obligations -/

/-- Settles O53: the tag selects the decoder of the method, and that decoder undoes the payload, pair by pair. -/
theorem roundTrip : Obligations.RoundTrip := by
  intro m l
  cases m with
  | A => exact decA_payload l
  | B => exact decB_payload l

theorem encodeStream_nil (m : Method) : encodeStream m [] = [tagByte m] := by
  rw [encodeStream, payload_nil]

/-- Settles O54: a container is its tag and then the payload, which is empty for the empty input; so the tag alone is an encoding
and decodes to that input. -/
theorem framingAndEmptyInput : Obligations.FramingAndEmptyInput := by
  have htag (m : Method) : decodeStream [tagByte m] = (.done, []) := encodeStream_nil m ▸ roundTrip m []
  exact ⟨fun _ => ⟨rfl, rfl⟩, encodeStream_nil .A, encodeStream_nil .B, htag .A, htag .B⟩

/-- With no two adjacent bytes equal every maximal run is one byte long, and so every token of Method-B is a literal (R90). -/
theorem payload_B_of_isChain_ne {l : List Byte} (h : l.IsChain (· ≠ ·)) : payload .B l = l := by
  induction l with
  | nil => exact payload_nil .B
  | cons v l ih =>
    obtain ⟨hv, hl⟩ := List.isChain_cons.mp h
    have hnext : l.head? ≠ some v := fun e => hv v e rfl
    calc payload .B (v :: l)
      _ = pairBytes .B (v, 1) ++ payload .B l := payload_rep_append .B v l hnext 1 le_rfl (by decide)
      _ = v :: l := by rw [ih hl]; rfl

/-- Settles O56: the payload of such an input is the input. -/
theorem methodBPassesThrough : Obligations.MethodBPassesThrough := by
  intro l hne
  exact congrArg (tagByte .B :: ·) (payload_B_of_isChain_ne (isChain_iff_getElem?_succ.mp hne))

end Sys2Proof.Machine
end

section
/-! PROOF. The maximal runs of a list (R120): what characterises them, and that nothing else does. -/

namespace Sys2Proof.Machine

/-- The bytes a list of pairs stands for (R70 (a)). -/
def expand (ps : List (Byte × Nat)) : List Byte := ps.flatMap fun p => rep p.2 p.1

@[simp] theorem expand_nil : expand [] = [] := rfl

@[simp] theorem expand_cons (p : Byte × Nat) (ps : List (Byte × Nat)) : expand (p :: ps) = rep p.2 p.1 ++ expand ps := rfl

theorem head?_expand {ps : List (Byte × Nat)} (hpos : ∀ p ∈ ps, 1 ≤ p.2) : (expand ps).head? = ps.head?.map Prod.fst := by
  cases ps with
  | nil => rfl
  | cons p ps => exact head?_rep_append (hpos p List.mem_cons_self) p.1 (expand ps)

theorem expand_maxruns (l : List Byte) : expand (maxruns l) = l := by
  induction l using run_induction with
  | nil => rfl
  | run v n l hl ih => rw [maxruns_rep_append v l hl n, expand_cons, ih]

theorem one_le_of_mem_maxruns (l : List Byte) : ∀ p ∈ maxruns l, 1 ≤ p.2 := by
  induction l using run_induction with
  | nil => simp
  | run v n l hl ih => simpa [maxruns_rep_append v l hl n] using ih

theorem head?_maxruns (l : List Byte) : (maxruns l).head?.map Prod.fst = l.head? := by
  rw [← head?_expand (one_le_of_mem_maxruns l), expand_maxruns]

theorem isChain_maxruns (l : List Byte) : (maxruns l).IsChain fun p q => p.1 ≠ q.1 := by
  induction l using run_induction with
  | nil => exact .nil
  | run v n l hl ih =>
    rw [maxruns_rep_append v l hl n, List.isChain_cons]
    refine ⟨fun q hq hv => hl ?_, ih⟩
    calc l.head?
      _ = (maxruns l).head?.map Prod.fst := (head?_maxruns l).symm
      _ = some q.1 := by rw [Option.mem_def.mp hq]; rfl
      _ = some v := congrArg some hv.symm

/-- Pairs of positive length whose byte changes from each to the next are the maximal runs of what they stand for. -/
theorem maxruns_expand {ps : List (Byte × Nat)} (hpos : ∀ p ∈ ps, 1 ≤ p.2) (hne : ps.IsChain fun p q => p.1 ≠ q.1) :
    maxruns (expand ps) = ps := by
  induction ps with
  | nil => rfl
  | cons p ps ih =>
    obtain ⟨hp, hps⟩ := List.forall_mem_cons.mp hpos
    obtain ⟨hfirst, hrest⟩ := List.isChain_cons.mp hne
    obtain ⟨v, n⟩ := p
    obtain ⟨k, rfl⟩ := Nat.exists_eq_add_of_le' hp
    have hnext : (expand ps).head? ≠ some v := by
      rw [head?_expand hps]
      intro e
      obtain ⟨q, hq, rfl⟩ := Option.map_eq_some_iff.mp e
      exact hfirst q hq rfl
    rw [expand_cons, maxruns_rep_append v (expand ps) hnext k, ih hps hrest]

/-- Settles O49: the maximal runs have the three properties, and a list that has them is the maximal runs of its expansion. -/
theorem maximalRunsAreUnique : Obligations.MaximalRunsAreUnique := by
  intro l ps
  rw [isChain_iff_getElem?_succ (R := fun p q : Byte × Nat => p.1 ≠ q.1)]
  constructor
  · rintro ⟨rfl, hpos, hne⟩
    exact (maxruns_expand hpos hne).symm
  · rintro rfl
    exact ⟨expand_maxruns l, one_le_of_mem_maxruns l, isChain_maxruns l⟩

end Sys2Proof.Machine
end

section
/-! PROOF. The decoder and the encoder of the three levels of code (R52, R53, R57, R58), and the transition map (R62): which row a
phase and a symbol select. -/

namespace Sys2Proof

variable {c : Ctx} {x : Symbol} {i : Instr}

/-! ## Tokens -/

theorem splitToken_A_pair (c v : Byte) (l : List Byte) : splitToken .A (c :: v :: l) = .ok (.aPair c v, l) := rfl

theorem splitToken_B_lit {v w : Byte} (h : w ≠ v) (l : List Byte) : splitToken .B (v :: w :: l) = .ok (.bLit v, w :: l) := by
  rw [splitToken.eq_def]
  simp [h]

theorem splitToken_B_run (v c : Byte) (l : List Byte) : splitToken .B (v :: v :: c :: l) = .ok (.bRun v c, l) := by
  simp [splitToken]

theorem splitToken_B_cut (v : Byte) : splitToken .B [v, v] = .error .cutRun := by
  simp [splitToken]

/-- Settles O5: a pair is read off, a literal and a run marker are told apart by the second byte, and an empty payload holds no
token under either method. -/
theorem tokenisationIsGreedy : Obligations.TokenisationIsGreedy := by
  refine ⟨splitToken_A_pair, fun _ => rfl, fun v w l h => splitToken_B_lit h l, splitToken_B_run,
    fun v => ⟨rfl, splitToken_B_cut v⟩, fun m => ?empty⟩
  case empty => cases m <;> rfl

/-! ## The transition map -/

/-- Below the cap is every length but the cap, as a length is one byte. -/
theorem lt_runCap_iff {n : Byte} : n.toNat < Config.runCap.toNat ↔ n ≠ Config.runCap := by
  rw [ne_eq, ← BitVec.toNat_inj]
  have : n.toNat < 256 := n.isLt
  have : Config.runCap.toNat = 255 := rfl
  omega

theorem admits_scanExtend_iff {b : Byte} : admits c (.scanExtend b) = true ↔
    c.phase = .encScan ∧ c.runOpen = true ∧ b = c.cur ∧ c.runLen.toNat < Config.runCap.toNat := by
  simp [admits, and_assoc]

/-- What R62 asks of a row for a symbol in a context: it follows a read of that symbol, its operand is one its code has, and its
phase and condition are met. -/
def Selects (c : Ctx) (x : Symbol) (i : Instr) : Prop :=
  i.symbol? = some x ∧ i.wf = true ∧ admits c i = true

/-- The scan's row on a byte is told by whether a run is open, whether the byte goes on with it, and whether the run is full. -/
theorem selects_decodeScan (hp : c.phase = .encScan) : Selects c x (decodeScan c x) := by
  cases x with
  | eoi => exact ⟨rfl, rfl, by simp [decodeScan, admits, hp]⟩
  | byte b =>
    simp only [decodeScan]
    split
    case isTrue hclosed => exact ⟨rfl, rfl, by simp [admits, hp, hclosed]⟩
    case isFalse hopen =>
      have hopen : c.runOpen = true := by simpa using hopen
      split
      case isFalse hother => exact ⟨rfl, rfl, by simp [admits, hp, hopen, hother]⟩
      case isTrue hsame =>
        split
        case isTrue hfull => exact ⟨rfl, rfl, by simp [admits, hp, hopen, hsame, hfull]⟩
        case isFalse hshort => exact ⟨rfl, rfl, by simp [admits, hp, hopen, hsame, lt_runCap_iff, hshort]⟩

theorem selects_decodeTag (hp : c.phase = .decTag) : Selects c x (decodeTag x) := by
  cases x with
  | eoi => exact ⟨rfl, rfl, by simp [decodeTag, admits, hp]⟩
  | byte t =>
    simp only [decodeTag]
    split
    case isTrue hA => exact ⟨by rw [hA]; rfl, rfl, by simp [admits, hp]⟩
    case isFalse hA =>
      split
      case isTrue hB => exact ⟨by rw [hB]; rfl, rfl, by simp [admits, hp]⟩
      case isFalse hB => exact ⟨rfl, by simp [Instr.wf, hA, hB], by simp [admits, hp, hA, hB]⟩

/-- The row the decoder gives is one R62 allows. -/
theorem selects_of_decodeSymbol (h : decodeSymbol c x = .ok i) : Selects c x i := by
  unfold decodeSymbol at h
  cases hp : c.phase <;> simp only [hp, reduceCtorEq] at h
  case encScan => cases h; exact selects_decodeScan hp
  case decTag => cases h; exact selects_decodeTag hp
  case decBSecond =>
    cases x with
    | eoi => cases h; exact ⟨rfl, rfl, by simp [admits, hp]⟩
    | byte b =>
      cases h
      split
      case isTrue hsame => exact ⟨rfl, rfl, by simp [admits, hp, hsame]⟩
      case isFalse hother => exact ⟨rfl, rfl, by simp [admits, hp, hother]⟩
  all_goals cases x <;> cases h <;> exact ⟨rfl, rfl, by simp [admits, hp]⟩

theorem tagB_ne_tagA : Config.tagB ≠ Config.tagA := by decide

/-- R62 allows no row but the one the decoder gives. -/
theorem decodeSymbol_of_selects (h : Selects c x i) : decodeSymbol c x = .ok i := by
  obtain ⟨hx, hwf, ha⟩ := h
  cases i <;> simp only [Instr.symbol?, Option.some.injEq, reduceCtorEq] at hx
  all_goals subst hx
  all_goals simp_all [admits, Instr.wf, decodeSymbol, decodeScan, decodeTag, lt_runCap_iff, tagB_ne_tagA]

theorem decodeSymbol_eq_ok_iff : decodeSymbol c x = .ok i ↔ Selects c x i :=
  ⟨selects_of_decodeSymbol, decodeSymbol_of_selects⟩

theorem decodeSymbol_reading (h : Machine.readKind c.phase ≠ .nothing) (x : Symbol) : ∃ i, decodeSymbol c x = .ok i := by
  unfold decodeSymbol
  cases hp : c.phase <;> cases x <;> simp [Machine.readKind, hp] at h ⊢

theorem decodeSymbol_not_reading (h : Machine.readKind c.phase = .nothing) (x : Symbol) :
    decodeSymbol c x = .error .phaseReadsNothing := by
  unfold decodeSymbol
  cases hp : c.phase <;> simp [Machine.readKind, hp] at h ⊢

/-- Settles O2: the decoder's row is the one whose columns are met, and it has a row exactly in the phases that read. -/
theorem transitionMapHasExactlyOneRow : Obligations.TransitionMapHasExactlyOneRow :=
  ⟨fun _ _ _ => decodeSymbol_eq_ok_iff, fun _ x h => decodeSymbol_reading h x, fun _ x h => decodeSymbol_not_reading h x⟩

/-! ## The encoder -/

theorem symbolOfWord_wordOfSymbol (x : Symbol) : symbolOfWord (wordOfSymbol x) = x := by
  cases x with
  | byte b => exact Laws.CodeLevel.byte_word b
  | eoi => rfl

theorem encode_eq_wordOfSymbol (h : i.symbol? = some x) : encode i = .symbol (wordOfSymbol x) := by
  cases i <;> cases h <;> rfl

/-- A token is told by the phase, its method's boundary, and by bytes that hold it and no more. -/
theorem decodeToken_of_splitToken {m : Method} {l : List Byte} (hp : tokenMethod c.phase = some m)
    (hl : splitToken m l = .ok (i, [])) : decodeToken c l = .ok i := by
  simp only [decodeToken, hp, hl]

/-- Settles O1: a row that follows a read is selected by its symbol; the columns of a token are its method's boundary; a command
word needs no context. -/
theorem decodeOfEncodeIsIdentity : Obligations.DecodeOfEncodeIsIdentity := by
  intro c i hwf ha
  cases hx : i.symbol? with
  | some x =>
    calc decode c (encode i)
      _ = decodeSymbol c (symbolOfWord (wordOfSymbol x)) := by rw [encode_eq_wordOfSymbol hx]; rfl
      _ = decodeSymbol c x := by rw [symbolOfWord_wordOfSymbol]
      _ = .ok i := decodeSymbol_of_selects ⟨hx, hwf, ha⟩
  | none =>
    cases i <;> simp only [Instr.symbol?, reduceCtorEq] at hx
    case encA | encB | dec => rfl
    case aPair n v =>
      have hp : c.phase = .decACnt := eq_of_beq ha
      exact decodeToken_of_splitToken (m := .A) (by rw [hp]; rfl) (splitToken_A_pair n v [])
    case bLit v =>
      have hp : c.phase = .decBFirst := eq_of_beq ha
      exact decodeToken_of_splitToken (m := .B) (by rw [hp]; rfl) rfl
    case bRun v n =>
      have hp : c.phase = .decBFirst := eq_of_beq ha
      exact decodeToken_of_splitToken (m := .B) (by rw [hp]; rfl) (splitToken_B_run v n [])

/-- Settles O3: each word is computed; only a command word meets a context that is not written out. -/
theorem sampleWordsDecode : Obligations.SampleWordsDecode := by
  refine ⟨fun _ => ⟨rfl, rfl, rfl, rfl⟩, ?_⟩
  decide

end Sys2Proof
end

section
/-! PROOF. The three commands (R105 to R108): what each does where it is accepted, and that it waits where it is not. -/

namespace Sys2Proof.Machine

variable {i : Instr} {s t : State}

/-! ## A command as an instruction -/

/-- The rows a command word stands for (R58). -/
def IsCommand (i : Instr) : Prop := i = .encA ∨ i = .encB ∨ i = .dec

theorem isCommand_decodeCmd (w : BitVec 2) : IsCommand (decodeCmd w) := by
  unfold decodeCmd
  split
  · exact .inr (.inr rfl)
  · split
    · exact .inr (.inl rfl)
    · exact .inl rfl

/-- A command's own effect, behind the acceptance common to all three (R106 to R108); none for a row that is no command. -/
def commandEffect (i : Instr) (s : State) : State :=
  match i with
  | .encA => { s with method := .A, phase := .encScan }.outWrite [tagByte .A]
  | .encB => { s with method := .B, phase := .encScan }.outWrite [tagByte .B]
  | .dec => { s with phase := .decTag }
  | _ => s

theorem exec_command (hi : IsCommand i) : exec i s = onCommand s (commandEffect i) := by
  obtain rfl | rfl | rfl := hi <;> rfl

theorem exec_command_ready (hi : IsCommand i) (hc : s.cmdReady = true) : exec i s = .next (commandEffect i s.accept) :=
  (exec_command hi).trans (onCommand_ready hc)

theorem exec_command_busy (hi : IsCommand i) (hc : s.cmdReady = false) : exec i s = .next s :=
  (exec_command hi).trans (onCommand_busy hc)

/-- Everything a command can do. -/
theorem exec_command_next (hi : IsCommand i) (h : exec i s = .next t) :
    (s.cmdReady = true ∧ t = commandEffect i s.accept) ∨ (s.cmdReady = false ∧ t = s) := by
  cases hc : s.cmdReady with
  | true => exact .inl ⟨rfl, (Host.Outcome.next.inj ((exec_command_ready hi hc).symm.trans h)).symm⟩
  | false => exact .inr ⟨rfl, (Host.Outcome.next.inj ((exec_command_busy hi hc).symm.trans h)).symm⟩

/-! ## The three commands -/

/-- Settles O9: in the three phases that accept it, the command has its effect on the state after the acceptance. -/
theorem encodeCommandsWriteTheTag : Obligations.EncodeCommandsWriteTheTag := by
  intro s hp
  have hc : s.cmdReady = true := cmdReady_iff.mpr hp
  exact ⟨exec_command_ready (.inl rfl) hc, exec_command_ready (.inr (.inl rfl)) hc⟩

/-- Settles O10: as for an encode, with a change of phase as the whole effect. -/
theorem decAwaitsTheTag : Obligations.DecAwaitsTheTag := by
  intro s hp
  exact exec_command_ready (.inr (.inr rfl)) (cmdReady_iff.mpr hp)

end Sys2Proof.Machine
end

section
/-! PROOF. The twenty transitions (R62): where each runs, which of them raise (R144), and the measure they lower (R134). -/

namespace Sys2Proof.Machine

variable {i : Instr} {x : Symbol} {s t u : State}

/-! ## What the read of a transition leaves -/

theorem read_phase (h : s.read = some (x, u)) : u.phase = s.phase := by rw [read_frame h]

theorem read_sink (h : s.read = some (x, u)) : u.mem.sink = s.mem.sink := by rw [read_frame h]

/-! ## Where a transition runs -/

/-- A row that is selected, with its symbol read, has its effect. -/
theorem exec_of_selects (h : Selects s.ctx x i) (hr : s.read = some (x, u)) : exec i s = .next (effectOf i s u) := by
  obtain ⟨hx, hwf, ha⟩ := h
  cases i <;> simp only [Instr.symbol?, Option.some.injEq, reduceCtorEq] at hx
  all_goals subst hx
  case dbLit b =>
    have hp : s.phase = .decBSecond ∧ b ≠ s.b1 := by simpa [admits] using ha
    have hd : s.decRead = some (.byte b, u) := by rw [← hr, read_eq_decRead (by rw [hp.1]; rfl)]
    have hempty : ({ u with phase := .decBFirst }.outWrite [s.b1]).laValid = false := decRead_empties (t := u) hd
    exact (onSymbol_selected hp.1 (bne_iff_ne.mpr hp.2) hr).trans (unread_empty hempty)
  case scanExtend b =>
    obtain ⟨hp, hopen, hsame, hshort⟩ := admits_scanExtend_iff.mp ha
    have hsel : (s.runOpen && b == s.cur && decide (s.runLen.toNat < Config.runCap.toNat)) = true := by
      simpa [hsame] using ⟨hopen, hshort⟩
    exact onSymbol_selected hp hsel hr
  all_goals
    simp only [admits, Bool.and_eq_true, beq_iff_eq, bne_iff_ne, Bool.not_eq_true', and_assoc, State.ctx_phase,
      State.ctx_runOpen, State.ctx_cur, State.ctx_runLen, State.ctx_b1] at ha
    refine onSymbol_selected ?_ ?_ hr
    · simp [ha]
    · simp [ha, tagByte]

/-- A row with anything amiss in its columns, or with another symbol next, is refused (log 12). -/
theorem exec_of_not_selected (hx : i.symbol? = some x) (h : ¬(i.wf = true ∧ admits s.ctx i = true ∧ s.peek = some x)) :
    exec i s = .refused .notSelected := by
  cases i <;> simp only [Instr.symbol?, Option.some.injEq, reduceCtorEq] at hx
  all_goals subst hx
  all_goals
    refine onSymbol_notSelected fun ⟨hp, hc, hk⟩ => h ⟨?_, ?_, hk⟩
    · simp_all [Instr.wf, tagByte]
    · simp_all [admits, tagByte]

/-- Settles O34: a symbol that is next can be read, and a selected row whose symbol is read has its effect. -/
theorem transitionRunsExactlyWhereSelected : Obligations.TransitionRunsExactlyWhereSelected := by
  refine fun s i x hx => ⟨fun ⟨hwf, ha, hk⟩ => ?selected, exec_of_not_selected hx⟩
  case selected =>
    obtain ⟨u, hr⟩ := read_of_peek hk
    exact ⟨_, exec_of_selects ⟨hx, hwf, ha⟩ hr⟩

/-- A transition gives a next state or is refused; it never faults (R23 item 2). -/
theorem exec_transition_total (hx : i.symbol? = some x) :
    (∃ t, exec i s = .next t) ∨ exec i s = .refused .notSelected := by
  obtain ⟨hyes, hno⟩ := transitionRunsExactlyWhereSelected s i x hx
  by_cases h : i.wf = true ∧ admits s.ctx i = true ∧ s.peek = some x
  · exact .inl (hyes h)
  · exact .inr (hno h)

/-! ## What a transition raises and writes -/

/-- Settles O20: the row has no state condition, and the constant stands for one of the two kinds. -/
theorem missingTagRaises : Obligations.MissingTagRaises := by
  refine fun s hphase hnone hends => ⟨onSymbol_inRead_eoi rfl hphase rfl hnone hends, ?kind⟩
  case kind =>
    cases Config.emptyDecodeErr with
    | unknownMethod => exact .inl rfl
    | malformedStream => exact .inr rfl

/-- R144: the four rows whose rule is `raise`. -/
def Raises (i : Instr) : Prop := i = .tagEoi ∨ i = .daTrunc ∨ i = .dbTrunc ∨ ∃ b, i = .tagIll b

theorem Raises.symbol (h : Raises i) : ∃ x, i.symbol? = some x := by
  obtain rfl | rfl | rfl | ⟨b, rfl⟩ := h <;> exact ⟨_, rfl⟩

theorem errOf_ne_none (k : ErrorKind) : errOf k ≠ .none := by
  cases k <;> decide

theorem effectOf_phase_eq_error_iff (hx : i.symbol? = some x) (hu : u.phase ≠ .error) :
    (effectOf i s u).phase = .error ↔ Raises i := by
  cases i <;> simp [effectOf, Raises, Instr.symbol?, hu] at hx ⊢

theorem effectOf_of_raises (h : Raises i) : ∃ k, effectOf i s u = u.raiseError k := by
  obtain rfl | rfl | rfl | ⟨b, rfl⟩ := h <;> exact ⟨_, rfl⟩

theorem exec_transition_raises_iff (hx : i.symbol? = some x) (h : exec i s = .next t) (hs : s.phase ≠ .error) :
    t.phase = .error ↔ Raises i := by
  obtain ⟨-, -, u, hr, rfl⟩ := exec_transition_next hx h
  exact effectOf_phase_eq_error_iff hx (by rwa [read_phase hr])

theorem exec_raising (hx : i.symbol? = some x) (h : exec i s = .next t) (hi : Raises i) :
    t.mem.sink = s.mem.sink ∧ t.err ≠ .none := by
  obtain ⟨-, -, u, hr, rfl⟩ := exec_transition_next hx h
  obtain ⟨k, hk⟩ := effectOf_of_raises (s := s) (u := u) hi
  rw [hk]
  exact ⟨read_sink (u := u) hr, errOf_ne_none k⟩

theorem commandEffect_phase_ne_error (hi : IsCommand i) : (commandEffect i s).phase ≠ .error := by
  obtain rfl | rfl | rfl := hi <;> simp [commandEffect]

/-- A row that is no transition leaves a state not in `ERROR` in none either: a command begins an operation or waits, and no
transition a token is made of raises. -/
theorem exec_command_or_token_not_error (hx : i.symbol? = none) (h : exec i s = .next t) (hs : s.phase ≠ .error) :
    t.phase ≠ .error := by
  have keeps {j : Instr} {y : Symbol} {v w : State} (hy : j.symbol? = some y) (hj : ¬Raises j) (hv : v.phase ≠ .error)
      (he : exec j v = .next w) : w.phase ≠ .error :=
    fun hw => hj ((exec_transition_raises_iff hy he hv).mp hw)
  have command (hi : IsCommand i) : t.phase ≠ .error := by
    obtain ⟨-, rfl⟩ | ⟨-, rfl⟩ := exec_command_next hi h
    · exact commandEffect_phase_ne_error hi
    · exact hs
  cases i <;> simp only [Instr.symbol?, reduceCtorEq] at hx
  case encA => exact command (.inl rfl)
  case encB => exact command (.inr (.inl rfl))
  case dec => exact command (.inr (.inr rfl))
  case aPair n v =>
    obtain ⟨u, hcount, hvalue⟩ := andThen_next h
    have hu := keeps (j := .daCount n) rfl (by simp [Raises]) hs hcount
    exact keeps (j := .daValue v) rfl (by simp [Raises]) hu hvalue
  case bLit v =>
    obtain ⟨u, hfirst, hsecond⟩ := andThen_next h
    have hu := keeps (j := .dbFirst v) rfl (by simp [Raises]) hs hfirst
    split at hsecond
    · exact keeps (j := .dbLit _) rfl (by simp [Raises]) hu hsecond
    · exact keeps (j := .dbEnd1) rfl (by simp [Raises]) hu hsecond
    · cases hsecond
  case bRun v n =>
    obtain ⟨u, hfirst, hrest⟩ := andThen_next h
    obtain ⟨w, hpair, hcount⟩ := andThen_next hrest
    have hu := keeps (j := .dbFirst v) rfl (by simp [Raises]) hs hfirst
    have hw := keeps (j := .dbPair v) rfl (by simp [Raises]) hu hpair
    exact keeps (j := .dbCount n) rfl (by simp [Raises]) hw hcount

/-- Settles O46: a transition raises exactly if its rule is `raise`, which records a kind and writes nothing; the other rows are
none of the four and never raise. -/
theorem exactlyFourTransitionsRaise : Obligations.ExactlyFourTransitionsRaise := by
  intro i s t h
  cases hx : i.symbol? with
  | some x =>
    have hiff := exec_transition_raises_iff hx h
    exact ⟨hiff, fun hs ht => exec_raising hx h ((hiff hs).mp ht)⟩
  | none =>
    have hi : ¬Raises i := fun hi => by obtain ⟨x, hy⟩ := hi.symbol; simp [hx] at hy
    have ht := exec_command_or_token_not_error hx h
    exact ⟨fun hs => iff_of_false (ht hs) hi, fun hs he => absurd he (ht hs)⟩

/-! ## The measure -/

theorem readKind_of_read (h : s.read = some (x, u)) : readKind s.phase ≠ .nothing := by
  intro hk
  simp [State.read, hk] at h

/-- A phase that reads is none an operation has ended in, so its `EOI` is still to come (R23 item 6). -/
theorem eoiTaken_of_read (hinv : s.Inv) (h : s.read = some (x, u)) : s.mem.eoiTaken = false := by
  have hk := readKind_of_read h
  by_contra he
  rcases hinv.eoiEnds (by simpa using he) with hp | hp <;> exact hk (by rw [hp]; rfl)

/-- A read of the source takes a byte or the `EOI`, each of which counts 2; a read of the buffer, in `DEC_B_FIRST` only, takes a
byte that counts 1. -/
theorem read_measure (hinv : s.Inv) (h : s.read = some (x, u)) :
    u.measure + 2 ≤ s.measure ∨ (s.phase = .decBFirst ∧ u.measure + 1 ≤ s.measure) := by
  have he := eoiTaken_of_read hinv h
  obtain ⟨hl, -, -, rfl⟩ | ⟨-, b, -, hb, rfl⟩ | ⟨-, -, -, -, rfl⟩ := read_cases h
  case inl => exact .inr ⟨hinv.pushback hl, by simp [State.measure, hl]⟩
  case inr.inl =>
    have hlt : s.mem.ipos < s.mem.src.length := (List.getElem?_eq_some_iff.mp hb).1
    refine .inl ?_
    simp only [State.measure]
    omega
  case inr.inr =>
    refine .inl ?_
    simp only [State.measure, he, Bool.toNat_false, Bool.toNat_true]
    omega

/-- Behind its read only `DB.LIT` changes what the measure counts: it fills the buffer. -/
theorem effectOf_measure (hx : i.symbol? = some x) :
    (effectOf i s u).measure ≤ u.measure + 1 ∧ ((∀ b, i ≠ .dbLit b) → (effectOf i s u).measure = u.measure) := by
  cases i <;> simp [effectOf, State.measure, Instr.symbol?] at hx ⊢

/-- Settles O47: the byte `DB.LIT` pushes back counts less than the byte it has read from the source. -/
theorem transitionsLowerTheMeasure : Obligations.TransitionsLowerTheMeasure := by
  intro i x s t hinv hx h
  obtain ⟨-, ha, u, hr, rfl⟩ := exec_transition_next hx h
  obtain ⟨hle, heq⟩ := effectOf_measure (s := s) (u := u) hx
  rcases read_measure hinv hr with hread | ⟨hp, hread⟩
  · omega
  · have hlit : ∀ b, i ≠ .dbLit b := by
      rintro b rfl
      simp [admits, hp] at ha
    have := heq hlit
    omega

end Sys2Proof.Machine
end

section
/-! PROOF. The three token formats as instructions (R52, R53): what a token does, its transitions one after another (R101). -/

namespace Sys2Proof.Machine

variable {i : Instr} {x : Symbol} {s t u : State} {l : List Byte}

/-! ## The bytes ahead -/

/-- The next byte of the source is the first of those not delivered. -/
theorem getElem?_ipos_of_drop {b : Byte} (h : s.mem.src.drop s.mem.ipos = b :: l) : s.mem.src[s.mem.ipos]? = some b := by
  rw [← List.head?_drop, h]
  rfl

theorem drop_succ_ipos {b : Byte} (h : s.mem.src.drop s.mem.ipos = b :: l) : s.mem.src.drop (s.mem.ipos + 1) = l := by
  rw [← List.tail_drop, h]
  rfl

theorem getElem?_ipos_of_drop_nil (h : s.mem.src.drop s.mem.ipos = []) : s.mem.src[s.mem.ipos]? = none := by
  rw [← List.head?_drop, h]
  rfl

theorem drop_ipos_of_getElem? {b : Byte} (h : s.mem.src[s.mem.ipos]? = some b) :
    s.mem.src.drop s.mem.ipos = b :: s.mem.src.drop (s.mem.ipos + 1) := by
  obtain ⟨hlt, rfl⟩ := List.getElem?_eq_some_iff.mp h
  exact List.drop_eq_getElem_cons hlt

theorem decRead_byte_of_drop {b : Byte} (hempty : s.laValid = false) (h : s.mem.src.drop s.mem.ipos = b :: l) :
    s.decRead = some (.byte b, { s with mem := { s.mem with ipos := s.mem.ipos + 1 } }) :=
  (decRead_unbuffered hempty).trans (inRead_byte (getElem?_ipos_of_drop h))

/-- A byte read in a phase that reads with `InRead` was the next of the source. -/
theorem read_byte_of_inRead {b : Byte} (hk : readKind s.phase = .inRead) (hr : s.read = some (.byte b, u)) :
    s.mem.src[s.mem.ipos]? = some b ∧ u = { s with mem := { s.mem with ipos := s.mem.ipos + 1 } } := by
  rw [read_eq_inRead hk] at hr
  obtain ⟨_, hb, hsrc, hu⟩ | ⟨he, -⟩ := inRead_cases hr
  · cases hb; exact ⟨hsrc, hu⟩
  · cases he

/-! ## `A.PAIR` -/

theorem exec_aPair_ahead {c v : Byte} (hp : s.phase = .decACnt) (h : s.mem.src.drop s.mem.ipos = c :: v :: l) :
    exec (.aPair c v) s = .next { s with
      cnt := c, mem := { s.mem with ipos := s.mem.ipos + 2, sink := s.mem.sink ++ List.replicate c.toNat v } } := by
  have hcount := daCountLatchesTheCount s c hp (getElem?_ipos_of_drop h)
  have hvalue := daValueExpandsThePair
    { s with cnt := c, phase := .decAVal, mem := { s.mem with ipos := s.mem.ipos + 1 } } v rfl
    (getElem?_ipos_of_drop (drop_succ_ipos h))
  calc exec (.aPair c v) s
    _ = andThen (exec (.daCount c) s) (exec (.daValue v)) := rfl
    _ = _ := by rw [hcount, andThen_of_next, hvalue, ← hp]

/-- A pair that gives a next state found its phase and its two bytes. -/
theorem ahead_of_exec_aPair {c v : Byte} (h : exec (.aPair c v) s = .next t) :
    s.phase = .decACnt ∧ ∃ l, s.mem.src.drop s.mem.ipos = c :: v :: l := by
  obtain ⟨u, hcount, hvalue⟩ := andThen_next h
  obtain ⟨-, ha, s', hr, rfl⟩ := exec_transition_next (i := .daCount c) rfl hcount
  have hp : s.phase = .decACnt := eq_of_beq ha
  obtain ⟨hc, rfl⟩ := read_byte_of_inRead (by rw [hp]; rfl) hr
  obtain ⟨-, -, u', hr', -⟩ := exec_transition_next (i := .daValue v) rfl hvalue
  obtain ⟨hv, -⟩ := read_byte_of_inRead rfl hr'
  exact ⟨hp, _, by rw [drop_ipos_of_getElem? hc]; exact congrArg _ (drop_ipos_of_getElem? hv)⟩

/-- A pair gives a next state or is refused, as its two transitions do. -/
theorem exec_aPair_total (c v : Byte) (s : State) :
    (∃ t, exec (.aPair c v) s = .next t) ∨ exec (.aPair c v) s = .refused .notSelected := by
  show (∃ t, andThen (exec (.daCount c) s) (exec (.daValue v)) = .next t) ∨
    andThen (exec (.daCount c) s) (exec (.daValue v)) = .refused .notSelected
  obtain ⟨u, hu⟩ | hno := exec_transition_total (s := s) (i := .daCount c) rfl
  · rw [hu, andThen_of_next]
    exact exec_transition_total rfl
  · exact .inr (by rw [hno, andThen_of_refused])

/-- Settles O30: with its two bytes ahead the pair is its two transitions; without them one of the two is refused. -/
theorem pairTokenExpands : Obligations.PairTokenExpands := by
  refine fun s c v => ⟨fun l hp h => exec_aPair_ahead hp h, fun hno => ?refused⟩
  case refused =>
    obtain ⟨t, ht⟩ | hrefused := exec_aPair_total c v s
    · obtain ⟨hp, hahead⟩ := ahead_of_exec_aPair ht
      exact (hno.elim (· hp) (· hahead)).elim
    · exact hrefused

/-! ## `B.LIT` and `B.RUN` -/

/-- A literal whose first byte has been read, with a byte after it. -/
theorem exec_bLit_byte {v b : Byte} (hfirst : exec (.dbFirst v) s = .next t) (hp : t.phase = .decBSecond)
    (hr : t.decRead = some (.byte b, u)) : exec (.bLit v) s = exec (.dbLit b) t := by
  have hpeek : t.peek = some (.byte b) := by rw [peek_eq_read, read_eq_decRead (by rw [hp]; rfl), hr]; rfl
  show andThen (exec (.dbFirst v) s) _ = _
  rw [hfirst, andThen_of_next, hpeek]
  rfl

/-- A literal whose first byte has been read, at the end of input. -/
theorem exec_bLit_eoi {v : Byte} (hfirst : exec (.dbFirst v) s = .next t) (hp : t.phase = .decBSecond)
    (hr : t.decRead = some (.eoi, u)) : exec (.bLit v) s = exec .dbEnd1 t := by
  have hpeek : t.peek = some .eoi := by rw [peek_eq_read, read_eq_decRead (by rw [hp]; rfl), hr]; rfl
  show andThen (exec (.dbFirst v) s) _ = _
  rw [hfirst, andThen_of_next, hpeek]
  rfl

/-- Whatever leads to a state that holds `v` as a first byte: with another byte ahead the literal is written and that byte pushed
back. -/
theorem exec_bLit_before_other {v w : Byte} (hfirst : exec (.dbFirst v) s = .next t) (hp : t.phase = .decBSecond)
    (hb : t.b1 = v) (hempty : t.laValid = false) (h : t.mem.src.drop t.mem.ipos = w :: l) (hw : w ≠ v) :
    exec (.bLit v) s = .next { t with
      phase := .decBFirst, laByte := w, laValid := true
      mem := { t.mem with ipos := t.mem.ipos + 1, sink := t.mem.sink ++ [v] } } := by
  have hr := decRead_byte_of_drop hempty h
  rw [exec_bLit_byte hfirst hp hr, (dbLitWritesAndPushesBack t _ w hp (by rwa [hb]) hr).1, hb]

/-- And at the end of input the literal is written and the decode is complete. -/
theorem exec_bLit_at_end {v : Byte} (hfirst : exec (.dbFirst v) s = .next t) (hp : t.phase = .decBSecond)
    (hb : t.b1 = v) (hempty : t.laValid = false) (h : t.mem.src.drop t.mem.ipos = []) (he : t.mem.ends = true) :
    exec (.bLit v) s = .next { t with
      phase := .done, mem := { t.mem with eoiTaken := true, sink := t.mem.sink ++ [v] } } := by
  have hnone := getElem?_ipos_of_drop_nil h
  have hr := (decRead_unbuffered hempty).trans (inRead_eoi hnone he)
  rw [exec_bLit_eoi hfirst hp hr, dbEnd1WritesTheLastLiteral t hp hempty hnone he, hb]

/-- Settles O31: the two forms of the first read, and after each of them a different byte or the end of input. -/
theorem literalTokenWritesOnce : Obligations.LiteralTokenWritesOnce := by
  obtain ⟨hbuffer, hsource⟩ := dbFirstLatchesTheByte
  refine ⟨fun s v hp hempty => ⟨fun w l h hw => ?sourceOther, fun h he => ?sourceEnd⟩,
    fun s hp hfull => ⟨fun w l h hw => ?bufferOther, fun h he => ?bufferEnd⟩⟩
  case sourceOther =>
    have hfirst := hsource s v hp hempty (getElem?_ipos_of_drop h)
    rw [exec_bLit_before_other hfirst rfl rfl hempty (drop_succ_ipos h) hw, ← hp]
  case sourceEnd =>
    have hfirst := hsource s v hp hempty (getElem?_ipos_of_drop h)
    exact exec_bLit_at_end hfirst rfl rfl hempty (drop_succ_ipos h) he
  case bufferOther =>
    rw [exec_bLit_before_other (hbuffer s hp hfull) rfl rfl rfl h hw, ← hp, ← hfull]
  case bufferEnd => exact exec_bLit_at_end (hbuffer s hp hfull) rfl rfl rfl h he

/-- Whatever leads to a state that holds `v` as a first byte: with `v` again and a count ahead, the run is written. -/
theorem exec_bRun_ahead {v c : Byte} (hfirst : exec (.dbFirst v) s = .next t) (hp : t.phase = .decBSecond)
    (hb : t.b1 = v) (hempty : t.laValid = false) (h : t.mem.src.drop t.mem.ipos = v :: c :: l) :
    exec (.bRun v c) s = .next { t with
      phase := .decBFirst
      mem := { t.mem with ipos := t.mem.ipos + 2, sink := t.mem.sink ++ List.replicate c.toNat v } } := by
  obtain ⟨hpair, -, -⟩ := dbPairAwaitsTheCount t _ v hp hb.symm (decRead_byte_of_drop hempty h)
  have hcount := (dbCountExpandsTheRun
    { t with phase := .decBCnt, mem := { t.mem with ipos := t.mem.ipos + 1 } } _ c rfl
    (decRead_byte_of_drop hempty (drop_succ_ipos h))).1
  calc exec (.bRun v c) s
    _ = andThen (exec (.dbFirst v) s) fun w => andThen (exec (.dbPair v) w) (exec (.dbCount c)) := rfl
    _ = _ := by rw [hfirst, andThen_of_next, hpair, andThen_of_next, hcount, hb]

/-- Settles O32: the first byte from either place, then the marker and the count from the source. -/
theorem runTokenExpands : Obligations.RunTokenExpands := by
  obtain ⟨hbuffer, hsource⟩ := dbFirstLatchesTheByte
  refine fun s v c l hp => ⟨fun hempty h => ?source, fun hfull hv h => ?buffer⟩
  case source =>
    have hfirst := hsource s v hp hempty (getElem?_ipos_of_drop h)
    rw [exec_bRun_ahead hfirst rfl rfl hempty (drop_succ_ipos h), ← hp]
  case buffer =>
    subst hv
    rw [exec_bRun_ahead (hbuffer s hp hfull) rfl rfl rfl h, ← hp]

end Sys2Proof.Machine
end

section
/-! PROOF. One step (R62): what is due, that it gives a next state, and what a placed word does. -/

namespace Sys2Proof.Machine

variable {i : Instr} {x : Symbol} {s t u : State} {l : List HostEvent}

/-! ## What the core fetches -/

theorem fetchSymbol_eq_some_iff : s.fetchSymbol = some i ↔ ∃ x, s.peek = some x ∧ Selects s.ctx x i := by
  unfold State.fetchSymbol
  cases s.peek with
  | none => simp
  | some x =>
    cases h : decodeSymbol s.ctx x with
    | ok j => simp [Except.toOption, ← decodeSymbol_eq_ok_iff, h]
    | error r => simp [Except.toOption, ← decodeSymbol_eq_ok_iff, h]

theorem fetchSymbol_of_peek_none (h : s.peek = none) : s.fetchSymbol = none := by
  simp [State.fetchSymbol, h]

/-- The transition the core fetches can be executed. -/
theorem exec_of_fetchSymbol (h : s.fetchSymbol = some i) : ∃ t, exec i s = .next t := by
  obtain ⟨x, hk, hsel⟩ := fetchSymbol_eq_some_iff.mp h
  obtain ⟨u, hr⟩ := read_of_peek hk
  exact ⟨_, exec_of_selects hsel hr⟩

/-! ## Whole tokens -/

theorem splitToken_A_ok {bytes r : List Byte} (h : splitToken .A bytes = .ok (i, r)) :
    ∃ c v, i = .aPair c v ∧ bytes = c :: v :: r := by
  obtain _ | ⟨c, _ | ⟨v, bytes⟩⟩ := bytes <;> cases h
  exact ⟨c, v, rfl, rfl⟩

/-- The three ways a Method-B token opens a payload (R53). -/
theorem splitToken_B_ok {bytes r : List Byte} (h : splitToken .B bytes = .ok (i, r)) :
    (∃ v, i = .bLit v ∧ bytes = [v] ∧ r = []) ∨ (∃ v w l, w ≠ v ∧ i = .bLit v ∧ bytes = v :: w :: l ∧ r = w :: l) ∨
    (∃ v c, i = .bRun v c ∧ bytes = v :: v :: c :: r) := by
  obtain _ | ⟨v, _ | ⟨w, bytes⟩⟩ := bytes
  · cases h
  · cases h; exact .inl ⟨v, rfl, rfl, rfl⟩
  · by_cases hw : w = v
    · subst hw
      obtain _ | ⟨c, bytes⟩ := bytes
      · rw [splitToken_B_cut] at h; cases h
      · rw [splitToken_B_run] at h; cases h; exact .inr (.inr ⟨w, c, rfl, rfl⟩)
    · rw [splitToken_B_lit hw] at h; cases h; exact .inr (.inl ⟨v, w, bytes, hw, rfl, rfl, rfl⟩)

theorem lookahead_buffered (h : s.laValid = true) : s.lookahead = s.laByte :: s.mem.rest := by
  simp [State.lookahead, h]

theorem lookahead_unbuffered (h : s.laValid = false) : s.lookahead = s.mem.rest := by
  simp [State.lookahead, h]

/-- A whole token at a boundary can be executed: its bytes are those its transitions ask for. -/
theorem exec_of_wholeToken (h : s.WholeToken i) : ∃ t, exec i s = .next t := by
  obtain ⟨hp, r, hr⟩ | ⟨hp, hends, r, hr⟩ := h
  · obtain ⟨c, v, rfl, hahead⟩ := splitToken_A_ok hr
    exact ⟨_, exec_aPair_ahead hp hahead⟩
  · obtain ⟨hsource, hbuffer⟩ := literalTokenWritesOnce
    cases hl : s.laValid with
    | false =>
      rw [lookahead_unbuffered hl] at hr hends
      obtain ⟨v, rfl, hahead, -⟩ | ⟨v, w, l, hw, rfl, hahead, -⟩ | ⟨v, c, rfl, hahead⟩ := splitToken_B_ok hr
      · exact ⟨_, (hsource s v hp hl).2 hahead (hends.resolve_right (by simp [hahead]))⟩
      · exact ⟨_, (hsource s v hp hl).1 w l hahead hw⟩
      · exact ⟨_, (runTokenExpands s v c r hp).1 hl hahead⟩
    | true =>
      rw [lookahead_buffered hl] at hr hends
      obtain ⟨v, rfl, hahead, -⟩ | ⟨v, w, l, hw, rfl, hahead, -⟩ | ⟨v, c, rfl, hahead⟩ := splitToken_B_ok hr
      all_goals obtain ⟨rfl, hrest⟩ := List.cons_eq_cons.mp hahead
      · exact ⟨_, (hbuffer s hp hl).2 hrest (hends.resolve_right (by simp [hrest]))⟩
      · exact ⟨_, (hbuffer s hp hl).1 w l hrest hw⟩
      · exact ⟨_, (runTokenExpands s s.laByte c r hp).2 hl rfl hrest⟩

/-! ## The step of the core -/

theorem fetch_of_wholeToken (hgrain : s.tokenGrain = true) (h : s.WholeToken i) : s.fetch = some i := by
  simp [State.fetch, hgrain, fetchToken_eq_some.mpr h]

theorem fetch_of_no_token (h : s.tokenGrain = false ∨ ∀ i, ¬s.WholeToken i) : s.fetch = s.fetchSymbol := by
  obtain ⟨hgrain, i, htoken, -⟩ | ⟨-, hf⟩ := fetch_cases (s := s)
  · exact (h.elim (fun hg => by simp [hg] at hgrain) fun hno => hno i htoken).elim
  · exact hf

/-- What the core does by itself: the instruction it fetches, or nothing (R12). -/
def State.coreStep (s : State) : Host.Outcome State Fault Refusal :=
  match s.fetch with
  | some i => exec i s
  | none => .next s

theorem coreStep_of_fetch (h : s.fetch = some i) : s.coreStep = exec i s := by
  simp [State.coreStep, h]

theorem coreStep_of_fetch_none (h : s.fetch = none) : s.coreStep = .next s := by
  simp [State.coreStep, h]

theorem coreStep_total (s : State) : ∃ t, s.coreStep = .next t := by
  cases hf : s.fetch with
  | none => exact ⟨s, coreStep_of_fetch_none hf⟩
  | some i =>
    rw [coreStep_of_fetch hf]
    obtain ⟨-, j, htoken, hj⟩ | ⟨-, hsymbol⟩ := fetch_cases (s := s)
    · obtain rfl : j = i := Option.some.inj (hj.symm.trans hf)
      exact exec_of_wholeToken htoken
    · exact exec_of_fetchSymbol (hsymbol.symm.trans hf)

/-- No act of the host is due: none left, a wait, or a command held off; `l` is the list after it (R105, R168). -/
def NoActDue (s : State) (l : List HostEvent) : Prop :=
  (s.host = [] ∧ l = []) ∨ s.host = .wait :: l ∨
    (∃ w o r, s.host = .command w o :: r ∧ l = s.host ∧ s.cmdReady = false)

theorem withHost_self : s.withHost s.host = s := rfl

theorem step_of_due_eq_dueCore (h : s.due = u.dueCore) : step s = u.coreStep := by
  unfold step
  rw [h]
  unfold State.dueCore State.coreStep
  cases u.fetch <;> rfl

/-- With no act due a step is the core's own. -/
theorem step_of_noActDue (h : NoActDue s l) : step s = (s.withHost l).coreStep := by
  refine step_of_due_eq_dueCore ?_
  obtain ⟨hh, rfl⟩ | hh | ⟨w, o, r, hh, rfl, hc⟩ := h
  · rw [show s.withHost [] = s by rw [← hh, withHost_self]]
    simp [State.due, hh]
  · simp [State.due, hh]
  · rw [withHost_self]
    simp [State.due, hh, hc]

theorem step_of_reset (h : s.host = .reset :: l) : step s = .next (s.withHost l).applyReset := by
  simp [step, State.due, h]

theorem step_of_command {w : BitVec 2} {o : Option Stream} (h : s.host = .command w o :: l) (hc : s.cmdReady = true) :
    step s = exec (decodeCmd w) ((s.withHost l).attach o) := by
  simp [step, State.due, h, hc]

/-- The command that is due is accepted, with the source at the stream attached for it. -/
theorem step_of_command_ready {w : BitVec 2} {o : Option Stream} (h : s.host = .command w o :: l) (hc : s.cmdReady = true) :
    step s = .next (commandEffect (decodeCmd w) ((s.withHost l).attach o).accept) := by
  have hready : ((s.withHost l).attach o).cmdReady = true := by cases o <;> exact hc
  rw [step_of_command h hc, exec_command_ready (isCommand_decodeCmd w) hready]

/-- What the head of the host's list makes of the next step. -/
theorem host_cases (s : State) :
    (∃ l, s.host = .reset :: l) ∨ (∃ w o l, s.host = .command w o :: l ∧ s.cmdReady = true) ∨ ∃ l, NoActDue s l := by
  cases hh : s.host with
  | nil => exact .inr (.inr ⟨[], .inl ⟨hh, rfl⟩⟩)
  | cons e l =>
    cases e with
    | reset => exact .inl ⟨l, rfl⟩
    | wait => exact .inr (.inr ⟨l, .inr (.inl hh)⟩)
    | command w o =>
      cases hc : s.cmdReady with
      | true => exact .inr (.inl ⟨w, o, l, rfl, rfl⟩)
      | false => exact .inr (.inr ⟨s.host, .inr (.inr ⟨w, o, l, hh, rfl, hc⟩)⟩)

/-! ## No step is refused, no instruction faults -/

theorem exec_command_total (hi : IsCommand i) (s : State) : ∃ t, exec i s = .next t := by
  cases hc : s.cmdReady with
  | true => exact ⟨_, exec_command_ready hi hc⟩
  | false => exact ⟨_, exec_command_busy hi hc⟩

theorem step_total (s : State) : ∃ t, step s = .next t := by
  obtain ⟨l, h⟩ | ⟨w, o, l, h, hc⟩ | ⟨l, h⟩ := host_cases s
  · exact ⟨_, step_of_reset h⟩
  · exact ⟨_, step_of_command_ready h hc⟩
  · rw [step_of_noActDue h]
    exact coreStep_total _

theorem andThen_ne_fault {o : Host.Outcome State Fault Refusal} {f : State → Host.Outcome State Fault Refusal}
    (ho : ∀ r, o ≠ .fault r) (hf : ∀ u r, f u ≠ .fault r) (r : Fault) : andThen o f ≠ .fault r := by
  cases o with
  | next u => exact hf u r
  | fault q => exact absurd rfl (ho q)
  | refused q => nofun

theorem exec_transition_ne_fault (hx : i.symbol? = some x) (s : State) (r : Fault) : exec i s ≠ .fault r := by
  obtain ⟨t, ht⟩ | hno := exec_transition_total (s := s) hx
  · rw [ht]; nofun
  · rw [hno]; nofun

theorem exec_ne_fault (i : Instr) (s : State) (r : Fault) : exec i s ≠ .fault r := by
  have command (hi : IsCommand i) : exec i s ≠ .fault r := by
    obtain ⟨t, ht⟩ := exec_command_total hi s
    rw [ht]; nofun
  cases hx : i.symbol? with
  | some x => exact exec_transition_ne_fault hx s r
  | none =>
    cases i <;> simp only [Instr.symbol?, reduceCtorEq] at hx
    case encA => exact command (.inl rfl)
    case encB => exact command (.inr (.inl rfl))
    case dec => exact command (.inr (.inr rfl))
    case aPair c v =>
      exact andThen_ne_fault (exec_transition_ne_fault (i := .daCount c) rfl s)
        (exec_transition_ne_fault (i := .daValue v) rfl) r
    case bLit v =>
      refine andThen_ne_fault (exec_transition_ne_fault (i := .dbFirst v) rfl s) (fun u q => ?_) r
      split
      · exact exec_transition_ne_fault (i := .dbLit _) rfl u q
      · exact exec_transition_ne_fault (i := .dbEnd1) rfl u q
      · nofun
    case bRun v c =>
      exact andThen_ne_fault (exec_transition_ne_fault (i := .dbFirst v) rfl s)
        (fun u => andThen_ne_fault (exec_transition_ne_fault (i := .dbPair v) rfl u)
          (exec_transition_ne_fault (i := .dbCount c) rfl)) r

/-- Settles O35: what is due can always be executed, and a fault could come from a transition only. -/
theorem everyStepGivesANextState : Obligations.EveryStepGivesANextState :=
  ⟨step_total, exec_ne_fault⟩

/-! ## What a step runs -/

/-- Settles O36: with no act due the step is the core's; outside token grain and where no whole token stands it fetches the
transition of the next symbol, else the token. -/
theorem stepRunsTheDecodedInstruction : Obligations.StepRunsTheDecodedInstruction := by
  intro s l hhost
  rw [step_of_noActDue hhost]
  refine ⟨fun hsymbol => ?_, fun hgrain i htoken => coreStep_of_fetch (fetch_of_wholeToken (s := s.withHost l) hgrain htoken)⟩
  have hf : (s.withHost l).fetch = (s.withHost l).fetchSymbol := fetch_of_no_token hsymbol
  refine ⟨fun x i hk hdec => ?symbol, fun hk => ?noSymbol⟩
  case symbol =>
    have hdec : decodeSymbol s.ctx x = .ok i := by
      rw [← symbolOfWord_wordOfSymbol x]
      exact hdec
    exact coreStep_of_fetch (hf.trans (fetchSymbol_eq_some_iff.mpr ⟨x, hk, selects_of_decodeSymbol hdec⟩))
  case noSymbol => exact coreStep_of_fetch_none (hf.trans (fetchSymbol_of_peek_none hk))

/-- Settles O37: the step of a command that is due, with the source left where it is or at the attached stream. -/
theorem stepTakesThePresentedCommand : Obligations.StepTakesThePresentedCommand := by
  intro s w l i hc hdec
  obtain rfl : decodeCmd w = i := Except.ok.inj hdec
  exact ⟨fun h => step_of_command h hc, fun bytes ends h => step_of_command h hc⟩

/-- Settles O39: the step of a reset that is due, written out field by field. -/
theorem resetAbortsAndKeepsTheStreams : Obligations.ResetAbortsAndKeepsTheStreams :=
  fun _ _ h => step_of_reset h

/-! ## A placed word -/

/-- A bare word is read as a command in `IDLE`, as a symbol in `DEC_TAG`, or as a token (log 15). -/
theorem tableCode_cases {nbits w : Nat} {p : Phase} {code : Code} (h : tableCode nbits w = some (p, code)) :
    (p = .idle ∧ ∃ c, code = .cmd c) ∨ (p = .decTag ∧ ∃ c, code = .symbol c) ∨ ∃ bytes, code = .token bytes := by
  unfold tableCode at h
  split_ifs at h <;> cases h
  case pos => exact .inl ⟨rfl, _, rfl⟩
  case pos => exact .inr (.inl ⟨rfl, _, rfl⟩)
  all_goals exact .inr (.inr ⟨_, rfl⟩)

theorem decodeTableWord_some {nbits w : Nat} (h : decodeTableWord nbits w = some i) :
    ∃ p code, tableCode nbits w = some (p, code) ∧ decode ⟨p, false, 0, 0, 0⟩ code = .ok i := by
  unfold decodeTableWord at h
  split at h
  · cases h
  · rename_i p code hcode
    refine ⟨p, code, hcode, ?_⟩
    cases hd : decode ⟨p, false, 0, 0, 0⟩ code with
    | ok j => rw [hd] at h; cases h; rfl
    | error r => rw [hd] at h; cases h

theorem withFetchWord_of_tableCode {nbits w : Nat} {p : Phase} {code : Code} (h : tableCode nbits w = some (p, code)) :
    s.withFetchWord nbits w = s.place p code := by
  simp [State.withFetchWord, h]

/-- The source delivers a placed symbol next. -/
theorem peek_place_symbol (w : BitVec 9) : (s.place .decTag (.symbol w)).peek = some (symbolOfWord w) := by
  simp only [State.place]
  cases symbolOfWord w <;> rfl

theorem decodeToken_ok {c : Ctx} {bytes : List Byte} (h : decodeToken c bytes = .ok i) :
    ∃ m, tokenMethod c.phase = some m ∧ splitToken m bytes = .ok (i, []) := by
  unfold decodeToken at h
  split at h
  · cases h
  · rename_i m hm
    split at h
    · cases h
    · rename_i hs
      cases h
      exact ⟨m, hm, hs⟩
    · cases h

/-- A placed token is a whole token at its boundary. -/
theorem wholeToken_place {p : Phase} {m : Method} {bytes : List Byte} (hp : tokenMethod p = some m)
    (hs : splitToken m bytes = .ok (i, [])) : (s.place p (.token bytes)).WholeToken i := by
  cases p <;> cases hp
  · exact .inl ⟨rfl, [], hs⟩
  · exact .inr ⟨rfl, .inl rfl, [], hs⟩

/-- Settles O38: the placed command is due in `IDLE`; the placed symbol is next in `DEC_TAG`, where the rest of the context is not
looked at; the placed token stands at its boundary. -/
theorem placedWordRuns : Obligations.PlacedWordRuns := by
  intro s nbits w i h
  obtain ⟨p, code, hcode, hdec⟩ := decodeTableWord_some h
  rw [withFetchWord_of_tableCode hcode]
  obtain ⟨rfl, c, rfl⟩ | ⟨rfl, c, rfl⟩ | ⟨bytes, rfl⟩ := tableCode_cases hcode
  · obtain rfl : decodeCmd c = i := Except.ok.inj hdec
    exact ⟨_, step_of_command (o := none) rfl rfl, rfl, exec_command_total (isCommand_decodeCmd c) _⟩
  · have hfetch : (s.place .decTag (.symbol c)).fetchSymbol = some i := by
      refine fetchSymbol_eq_some_iff.mpr ⟨_, peek_place_symbol c, selects_of_decodeSymbol ?_⟩
      rw [decodeSymbol_decTag rfl, ← decodeSymbol_decTag (c := ⟨.decTag, false, 0, 0, 0⟩) rfl]
      exact hdec
    exact ⟨_, (step_of_noActDue (.inl ⟨rfl, rfl⟩)).trans (coreStep_of_fetch hfetch), rfl, exec_of_fetchSymbol hfetch⟩
  · obtain ⟨m, hm, hs⟩ := decodeToken_ok hdec
    have htoken := wholeToken_place (s := s) hm hs
    exact ⟨_, (stepRunsTheDecodedInstruction _ [] (.inl ⟨rfl, rfl⟩)).2 rfl i htoken, rfl, exec_of_wholeToken htoken⟩

end Sys2Proof.Machine
end

section
/-! PROOF. What a step does not look at, the host's list and the grain (log 8, 14), and how far it moves the streams (R34, R39). -/

namespace Sys2Proof.Machine

variable {i : Instr} {x : Symbol} {s t u : State} {l : List HostEvent} {g : Bool}

/-! ## The host's list and the grain -/

/-- `s` with the two fields that are no part of the block. -/
def State.inSetting (s : State) (l : List HostEvent) (g : Bool) : State := { s with host := l, tokenGrain := g }

theorem inRead_inSetting (l : List HostEvent) (g : Bool) (h : s.inRead = some (x, u)) :
    (s.inSetting l g).inRead = some (x, u.inSetting l g) := by
  obtain ⟨b, rfl, hb, rfl⟩ | ⟨rfl, hn, he, rfl⟩ := inRead_cases h
  · exact inRead_byte (s := s.inSetting l g) hb
  · exact inRead_eoi (s := s.inSetting l g) hn he

theorem decRead_inSetting (l : List HostEvent) (g : Bool) (h : s.decRead = some (x, u)) :
    (s.inSetting l g).decRead = some (x, u.inSetting l g) := by
  obtain ⟨hl, rfl, rfl⟩ | ⟨hl, h⟩ := decRead_cases h
  · exact decRead_buffered (s := s.inSetting l g) hl
  · exact (decRead_unbuffered (s := s.inSetting l g) hl).trans (inRead_inSetting l g h)

theorem read_inSetting (l : List HostEvent) (g : Bool) (h : s.read = some (x, u)) :
    (s.inSetting l g).read = some (x, u.inSetting l g) := by
  cases hk : readKind s.phase with
  | nothing => exact absurd hk (readKind_of_read h)
  | inRead =>
    rw [read_eq_inRead (s := s.inSetting l g) hk]
    exact inRead_inSetting l g (by rwa [read_eq_inRead hk] at h)
  | decRead =>
    rw [read_eq_decRead (s := s.inSetting l g) hk]
    exact decRead_inSetting l g (by rwa [read_eq_decRead hk] at h)

theorem effectOf_inSetting (i : Instr) (s u : State) (l : List HostEvent) (g : Bool) :
    effectOf i (s.inSetting l g) (u.inSetting l g) = (effectOf i s u).inSetting l g := by
  cases i <;> rfl

theorem exec_transition_inSetting (hx : i.symbol? = some x) (h : exec i s = .next t) (l : List HostEvent) (g : Bool) :
    exec i (s.inSetting l g) = .next (t.inSetting l g) := by
  obtain ⟨hwf, ha, u, hr, rfl⟩ := exec_transition_next hx h
  rw [← effectOf_inSetting]
  exact exec_of_selects ⟨hx, hwf, ha⟩ (read_inSetting l g hr)

theorem commandEffect_inSetting (i : Instr) (s : State) (l : List HostEvent) (g : Bool) :
    commandEffect i (s.inSetting l g) = (commandEffect i s).inSetting l g := by
  cases i <;> rfl

theorem exec_command_inSetting (hi : IsCommand i) (h : exec i s = .next t) (l : List HostEvent) (g : Bool) :
    exec i (s.inSetting l g) = .next (t.inSetting l g) := by
  obtain ⟨hc, rfl⟩ | ⟨hc, rfl⟩ := exec_command_next hi h
  · rw [← commandEffect_inSetting]
    exact exec_command_ready hi hc
  · exact exec_command_busy hi hc

theorem andThen_eq_next {o : Host.Outcome State Fault Refusal} {f : State → Host.Outcome State Fault Refusal}
    (ho : o = .next t) (hf : f t = .next u) : andThen o f = .next u := by
  rw [ho, andThen_of_next, hf]

/-- Whatever an instruction does, it does in any setting. -/
theorem exec_inSetting (h : exec i s = .next t) (l : List HostEvent) (g : Bool) :
    exec i (s.inSetting l g) = .next (t.inSetting l g) := by
  cases hx : i.symbol? with
  | some x => exact exec_transition_inSetting hx h l g
  | none =>
    cases i <;> simp only [Instr.symbol?, reduceCtorEq] at hx
    case encA => exact exec_command_inSetting (.inl rfl) h l g
    case encB => exact exec_command_inSetting (.inr (.inl rfl)) h l g
    case dec => exact exec_command_inSetting (.inr (.inr rfl)) h l g
    case aPair c v =>
      obtain ⟨u, hcount, hvalue⟩ := andThen_next h
      exact andThen_eq_next (exec_transition_inSetting (i := .daCount c) rfl hcount l g)
        (exec_transition_inSetting (i := .daValue v) rfl hvalue l g)
    case bLit v =>
      obtain ⟨u, hfirst, hsecond⟩ := andThen_next h
      refine andThen_eq_next (exec_transition_inSetting (i := .dbFirst v) rfl hfirst l g) ?_
      have hpeek : (u.inSetting l g).peek = u.peek := rfl
      rw [hpeek]
      split at hsecond
      · exact exec_transition_inSetting (i := .dbLit _) rfl hsecond l g
      · exact exec_transition_inSetting (i := .dbEnd1) rfl hsecond l g
      · cases hsecond
    case bRun v c =>
      obtain ⟨u, hfirst, hrest⟩ := andThen_next h
      obtain ⟨w, hpair, hcount⟩ := andThen_next hrest
      exact andThen_eq_next (exec_transition_inSetting (i := .dbFirst v) rfl hfirst l g)
        (andThen_eq_next (exec_transition_inSetting (i := .dbPair v) rfl hpair l g)
          (exec_transition_inSetting (i := .dbCount c) rfl hcount l g))

/-- No instruction touches the host's list or the grain. -/
theorem exec_keeps_setting (h : exec i s = .next t) : t.host = s.host ∧ t.tokenGrain = s.tokenGrain := by
  have hself : exec i s = .next (t.inSetting s.host s.tokenGrain) := exec_inSetting h s.host s.tokenGrain
  have ht : t = t.inSetting s.host s.tokenGrain := Host.Outcome.next.inj (h.symm.trans hself)
  exact ⟨by rw [ht]; rfl, by rw [ht]; rfl⟩

theorem coreStep_keeps_host (h : s.coreStep = .next t) : t.host = s.host := by
  cases hf : s.fetch with
  | some i => exact (exec_keeps_setting ((coreStep_of_fetch hf).symm.trans h)).1
  | none => rw [Host.Outcome.next.inj ((coreStep_of_fetch_none hf).symm.trans h)]

/-- What the core does by itself, it does whatever the host has in mind. -/
theorem coreStep_withHost (h : s.coreStep = .next t) (l : List HostEvent) :
    (s.withHost l).coreStep = .next (t.withHost l) := by
  have hfetch : (s.withHost l).fetch = s.fetch := rfl
  cases hf : s.fetch with
  | some i =>
    have hexec : exec i s = .next t := (coreStep_of_fetch hf).symm.trans h
    have hl : exec i (s.withHost l) = .next (t.inSetting l s.tokenGrain) := exec_inSetting hexec l s.tokenGrain
    rw [coreStep_of_fetch (hfetch.trans hf), hl, ← (exec_keeps_setting hexec).2]
    rfl
  | none =>
    rw [coreStep_of_fetch_none (hfetch.trans hf), ← Host.Outcome.next.inj ((coreStep_of_fetch_none hf).symm.trans h)]

/-- Settles O11: the acceptance is all a command does, and it asks for a phase that is not busy; the step of the core is the same
with the command held off as with no act of the host. -/
theorem commandWaitsWhileBusy : Obligations.CommandWaitsWhileBusy := by
  intro s hidle hdone herror
  have hc : s.cmdReady = false := by
    by_contra h
    rcases cmdReady_iff.mp (by simpa using h) with hp | hp | hp <;> contradiction
  refine ⟨exec_command_busy (.inl rfl) hc, exec_command_busy (.inr (.inl rfl)) hc, exec_command_busy (.inr (.inr rfl)) hc,
    fun w o l t hhost hstep => ?held⟩
  case held =>
    have hcore : s.coreStep = .next t := (step_of_noActDue (.inr (.inr ⟨w, o, l, hhost, rfl, hc⟩))).symm.trans hstep
    refine ⟨coreStep_keeps_host hcore, ?_⟩
    calc step { s with host := [] }
      _ = (s.withHost []).coreStep := step_of_noActDue (s := s.withHost []) (.inl ⟨rfl, rfl⟩)
      _ = .next { t with host := [] } := coreStep_withHost hcore []

/-! ## A step as transitions -/

/-- `n` transitions, one after another, lead from one state to another. -/
inductive Transitions : Nat → State → State → Prop
  | nil (s : State) : Transitions 0 s s
  | cons {n : Nat} {i : Instr} {x : Symbol} {s u t : State} (hx : i.symbol? = some x) (h : exec i s = .next u)
      (rest : Transitions n u t) : Transitions (n + 1) s t

theorem Transitions.one (hx : i.symbol? = some x) (h : exec i s = .next t) : Transitions 1 s t := .cons hx h (.nil t)

/-- A token is two transitions or three (R101). -/
theorem transitions_of_exec_token (hx : i.symbol? = none) (hi : ¬IsCommand i) (h : exec i s = .next t) :
    ∃ n, 2 ≤ n ∧ n ≤ 3 ∧ Transitions n s t := by
  cases i <;> simp only [Instr.symbol?, reduceCtorEq] at hx
  case encA | encB | dec => exact absurd (by simp [IsCommand]) hi
  case aPair c v =>
    obtain ⟨u, hcount, hvalue⟩ := andThen_next h
    exact ⟨2, by decide, by decide, .cons (i := .daCount c) rfl hcount (.one (i := .daValue v) rfl hvalue)⟩
  case bLit v =>
    obtain ⟨u, hfirst, hsecond⟩ := andThen_next h
    refine ⟨2, by decide, by decide, .cons (i := .dbFirst v) rfl hfirst ?_⟩
    split at hsecond
    · exact .one (i := .dbLit _) rfl hsecond
    · exact .one (i := .dbEnd1) rfl hsecond
    · cases hsecond
  case bRun v c =>
    obtain ⟨u, hfirst, hrest⟩ := andThen_next h
    obtain ⟨w, hpair, hcount⟩ := andThen_next hrest
    exact ⟨3, by decide, by decide, .cons (i := .dbFirst v) rfl hfirst
      (.cons (i := .dbPair v) rfl hpair (.one (i := .dbCount c) rfl hcount))⟩

theorem not_isCommand_of_wholeToken (h : s.WholeToken i) : ¬IsCommand i := by
  obtain ⟨-, r, hr⟩ | ⟨-, -, r, hr⟩ := h
  · obtain ⟨c, v, rfl, -⟩ := splitToken_A_ok hr
    simp [IsCommand]
  · obtain ⟨v, rfl, -⟩ | ⟨v, w, l, -, rfl, -⟩ | ⟨v, c, rfl, -⟩ := splitToken_B_ok hr <;> simp [IsCommand]

/-- Everything the core can do by itself: nothing, one transition, or in token grain up to three of them. -/
theorem coreStep_cases (h : s.coreStep = .next t) :
    (s.fetch = none ∧ t = s) ∨
    ∃ n, 1 ≤ n ∧ n ≤ 3 ∧ (s.tokenGrain = false → n = 1) ∧ Transitions n s t := by
  cases hf : s.fetch with
  | none => exact .inl ⟨rfl, (Host.Outcome.next.inj ((coreStep_of_fetch_none hf).symm.trans h)).symm⟩
  | some i =>
    have hexec : exec i s = .next t := (coreStep_of_fetch hf).symm.trans h
    have transition {x : Symbol} (hx : i.symbol? = some x) :
        ∃ n, 1 ≤ n ∧ n ≤ 3 ∧ (s.tokenGrain = false → n = 1) ∧ Transitions n s t :=
      ⟨1, by decide, by decide, fun _ => rfl, .one hx hexec⟩
    right
    obtain ⟨hgrain, j, htoken, hj⟩ | ⟨-, hsymbol⟩ := fetch_cases (s := s)
    · obtain rfl : j = i := Option.some.inj (hj.symm.trans hf)
      cases hx : j.symbol? with
      | some x => exact transition hx
      | none =>
        obtain ⟨n, hlo, hhi, hn⟩ := transitions_of_exec_token hx (not_isCommand_of_wholeToken htoken) hexec
        exact ⟨n, Nat.le_of_succ_le hlo, hhi, fun hg => by simp [hg] at hgrain, hn⟩
    · obtain ⟨x, -, hx, -, -⟩ := fetchSymbol_eq_some_iff.mp (hsymbol.symm.trans hf)
      exact transition hx

/-- Everything a step can do: a reset, an accepted command, or what the core does by itself. -/
theorem step_next (h : step s = .next t) :
    (∃ l, s.host = .reset :: l ∧ t = (s.withHost l).applyReset) ∨
    (∃ w o l, s.host = .command w o :: l ∧ s.cmdReady = true ∧
      t = commandEffect (decodeCmd w) ((s.withHost l).attach o).accept) ∨
    ∃ l, NoActDue s l ∧ (s.withHost l).coreStep = .next t := by
  obtain ⟨l, hl⟩ | ⟨w, o, l, hl, hc⟩ | ⟨l, hl⟩ := host_cases s
  · exact .inl ⟨l, hl, Host.Outcome.next.inj (h.symm.trans (step_of_reset hl))⟩
  · exact .inr (.inl ⟨w, o, l, hl, hc, Host.Outcome.next.inj (h.symm.trans (step_of_command_ready hl hc))⟩)
  · exact .inr (.inr ⟨l, hl, (step_of_noActDue hl).symm.trans h⟩)

/-! ## The two grains -/

/-- The block alone, one symbol at a step. -/
def State.bySymbols (s : State) : State := s.inSetting [] false

/-- Any transition that can be executed is the next step by symbols (R62). -/
theorem step_bySymbols (hx : i.symbol? = some x) (h : exec i s = .next t) : step s.bySymbols = .next t.bySymbols := by
  obtain ⟨hwf, ha, u, hr, -⟩ := exec_transition_next hx h
  have hpeek : s.bySymbols.peek = some x := by rw [peek_eq_read, State.bySymbols, read_inSetting [] false hr]; rfl
  have hfetch : s.bySymbols.fetch = some i := fetchSymbol_eq_some_iff.mpr ⟨x, hpeek, hx, hwf, ha⟩
  calc step s.bySymbols
    _ = s.bySymbols.coreStep := step_of_noActDue (.inl ⟨rfl, rfl⟩)
    _ = exec i s.bySymbols := coreStep_of_fetch hfetch
    _ = .next t.bySymbols := exec_transition_inSetting hx h [] false

theorem run_succ {k : Nat} (h : step s = .next t) : Sys2Proof.core.run (k + 1) s = Sys2Proof.core.run k t := by
  have hcore : Sys2Proof.core.step s = .next t := h
  simp only [Host.Core.run, hcore]

theorem run_bySymbols {n : Nat} (h : Transitions n s t) : Sys2Proof.core.run n s.bySymbols = .next t.bySymbols := by
  induction h with
  | nil s => rfl
  | cons hx h _ ih => rw [run_succ (step_bySymbols hx h), ih]

/-- A core with nothing to fetch in token grain has nothing to fetch by symbols either. -/
theorem step_bySymbols_of_fetch_none (h : s.fetch = none) : step s.bySymbols = .next s.bySymbols := by
  have hsymbol : s.fetchSymbol = none := by
    obtain ⟨-, i, -, hi⟩ | ⟨-, hf⟩ := fetch_cases (s := s)
    · simp [h] at hi
    · rw [← hf, h]
  exact (step_of_noActDue (.inl ⟨rfl, rfl⟩)).trans (coreStep_of_fetch_none hsymbol)

/-- Settles O33: a step of the core is up to three transitions, and each of them is the next step by symbols. -/
theorem tokenStepIsSymbolSteps : Obligations.TokenStepIsSymbolSteps := by
  intro s t hhost _ h
  have hself : s.withHost [] = s := by rw [← hhost, withHost_self]
  have hcore : s.coreStep = .next t := by
    rw [← hself]
    exact (step_of_noActDue (.inl ⟨hhost, rfl⟩)).symm.trans h
  have hs : { s with tokenGrain := false } = s.bySymbols := by rw [State.bySymbols, ← hhost]; rfl
  have ht : { t with tokenGrain := false } = t.bySymbols := by
    rw [State.bySymbols, ← hhost, ← coreStep_keeps_host hcore]; rfl
  rw [hs, ht]
  obtain ⟨hf, rfl⟩ | ⟨n, hlo, hhi, -, hn⟩ := coreStep_cases hcore
  · exact ⟨1, by decide, by decide, run_succ (step_bySymbols_of_fetch_none hf)⟩
  · exact ⟨n, hlo, hhi, run_bySymbols hn⟩

/-! ## The streams -/

/-- `s` leads to `t` within one input, of which `n` bytes at most are taken; the sink only grows (R34, R39). -/
structure Forward (n : Nat) (s t : State) : Prop where
  src  : t.mem.src = s.mem.src
  ends : t.mem.ends = s.mem.ends
  base : t.mem.base = s.mem.base
  lo   : s.mem.ipos ≤ t.mem.ipos
  hi   : t.mem.ipos ≤ s.mem.ipos + n
  sink : ∃ l, t.mem.sink = s.mem.sink ++ l

theorem Forward.refl (s : State) : Forward 0 s s := ⟨rfl, rfl, rfl, le_rfl, le_rfl, [], (List.append_nil _).symm⟩

theorem Forward.trans {m n : Nat} (h : Forward m s u) (h' : Forward n u t) : Forward (m + n) s t := by
  obtain ⟨l, hl⟩ := h.sink
  obtain ⟨l', hl'⟩ := h'.sink
  exact ⟨h'.src.trans h.src, h'.ends.trans h.ends, h'.base.trans h.base, h.lo.trans h'.lo, by have := h.hi; have := h'.hi; omega,
    l ++ l', by rw [hl', hl, List.append_assoc]⟩

theorem Forward.mono {m n : Nat} (h : Forward m s t) (hmn : m ≤ n) : Forward n s t :=
  { h with hi := h.hi.trans (Nat.add_le_add_left hmn _) }

theorem forward_read (h : s.read = some (x, u)) : Forward 1 s u := by
  obtain ⟨-, -, -, rfl⟩ | ⟨-, b, -, -, rfl⟩ | ⟨-, -, -, -, rfl⟩ := read_cases h
  · exact { (Forward.refl s) with hi := Nat.le_succ _ }
  · exact { (Forward.refl s) with lo := Nat.le_succ _, hi := le_rfl }
  · exact { (Forward.refl s) with hi := Nat.le_succ _ }

theorem forward_effectOf (hx : i.symbol? = some x) (s u : State) : Forward 0 u (effectOf i s u) := by
  cases i <;> simp only [Instr.symbol?, reduceCtorEq] at hx
  case scanCap | scanBreak | scanEnd | daValue | dbLit | dbEnd1 | dbCount =>
    exact ⟨rfl, rfl, rfl, le_rfl, le_rfl, _, rfl⟩
  all_goals exact { Forward.refl u with }

theorem forward_of_transition (hx : i.symbol? = some x) (h : exec i s = .next t) : Forward 1 s t := by
  obtain ⟨-, -, u, hr, rfl⟩ := exec_transition_next hx h
  exact (forward_read hr).trans (forward_effectOf hx s u)

theorem forward_of_transitions {n : Nat} (h : Transitions n s t) : Forward n s t := by
  induction h with
  | nil s => exact .refl s
  | cons hx h _ ih => exact Nat.add_comm _ _ ▸ (forward_of_transition hx h).trans ih

theorem forward_of_coreStep (h : s.coreStep = .next t) : Forward 3 s t ∧ (s.tokenGrain = false → Forward 1 s t) := by
  obtain ⟨-, rfl⟩ | ⟨n, -, hhi, hgrain, hn⟩ := coreStep_cases h
  · exact ⟨(Forward.refl t).mono (by decide), fun _ => (Forward.refl t).mono (by decide)⟩
  · exact ⟨(forward_of_transitions hn).mono hhi, fun hg => hgrain hg ▸ forward_of_transitions hn⟩

theorem attach_sink (s : State) (o : Option Stream) : (s.attach o).mem.sink = s.mem.sink := by
  cases o <;> rfl

/-- A command writes its tag or nothing behind what the sink holds. -/
theorem commandEffect_sink (i : Instr) (s : State) : ∃ l, (commandEffect i s).mem.sink = s.mem.sink ++ l := by
  cases i
  case encA | encB => exact ⟨_, rfl⟩
  all_goals exact ⟨[], (List.append_nil _).symm⟩

/-- Settles O8: reset moves nothing; a command appends its tag at most; what the core does takes a byte with each transition at
most. -/
theorem streamsOnlyGoForward : Obligations.StreamsOnlyGoForward := by
  intro s t h
  obtain ⟨l, -, rfl⟩ | ⟨w, o, l, hhost, hc, rfl⟩ | ⟨l, -, hcore⟩ := step_next h
  · exact ⟨⟨[], (List.append_nil _).symm⟩, fun _ => ⟨rfl, rfl, le_rfl, Nat.le_add_right _ _, fun _ => Nat.le_succ _⟩⟩
  · obtain ⟨r, hr⟩ := commandEffect_sink (decodeCmd w) ((s.withHost l).attach o).accept
    refine ⟨⟨r, hr.trans ?_⟩, fun hno => ?_⟩
    · rw [State.accept_mem, attach_sink, State.withHost_mem]
    · simp [hno w o l hhost] at hc
  · obtain ⟨hthree, hone⟩ := forward_of_coreStep hcore
    exact ⟨hthree.sink, fun _ => ⟨hthree.src, hthree.ends, hthree.lo, hthree.hi, fun hg => (hone hg).hi⟩⟩

end Sys2Proof.Machine
end

section
/-! PROOF. The invariants of R23 and R22: they hold at reset and every step keeps them; what they say of an operation that has
raised an error (R18, R150, R151). -/

namespace Sys2Proof.Machine

variable {i : Instr} {x : Symbol} {s t u : State} {P : State → Prop}

/-! ## A property every step keeps -/

theorem transitions_keep {n : Nat} (transition : ∀ i x s t, i.symbol? = some x → exec i s = .next t → P s → P t)
    (h : Transitions n s t) (hs : P s) : P t := by
  induction h with
  | nil => exact hs
  | cons hx he _ ih => exact ih (transition _ _ _ _ hx he hs)

/-- What the host's acts and each single transition keep, every step keeps. -/
theorem step_keeps (setting : ∀ s l, P s → P (s.withHost l)) (reset : ∀ s, P s → P s.applyReset)
    (command : ∀ i s o, IsCommand i → s.cmdReady = true → P s → P (commandEffect i (s.attach o).accept))
    (transition : ∀ i x s t, i.symbol? = some x → exec i s = .next t → P s → P t) (hs : P s) (h : step s = .next t) :
    P t := by
  obtain ⟨l, -, rfl⟩ | ⟨w, o, l, -, hc, rfl⟩ | ⟨l, -, hcore⟩ := step_next h
  · exact reset _ (setting s l hs)
  · exact command _ _ o (isCommand_decodeCmd w) hc (setting s l hs)
  · obtain ⟨-, rfl⟩ | ⟨n, -, -, -, hn⟩ := coreStep_cases hcore
    · exact setting s l hs
    · exact transitions_keep transition hn (setting s l hs)

/-! ## The invariants, act by act -/

/-- R23 item 2: the buffer is full in `DEC_B_FIRST` only, whose read empties it. -/
theorem read_empties (hinv : s.Inv) (h : s.read = some (x, u)) : u.laValid = false := by
  cases hl : s.laValid with
  | true =>
    have hk : readKind s.phase = .decRead := by rw [hinv.pushback hl]; rfl
    exact decRead_empties ((read_eq_decRead hk).symm.trans h)
  | false =>
    obtain ⟨hfull, -⟩ | ⟨-, b, -, -, rfl⟩ | ⟨-, -, -, -, rfl⟩ := read_cases h
    · simp [hl] at hfull
    · exact hl
    · exact hl

/-- R23 item 6: `EOI` is taken by the read that returns it. -/
theorem eoi_of_read_eoiTaken (hinv : s.Inv) (h : s.read = some (x, u)) (he : u.mem.eoiTaken = true) : x = .eoi := by
  have hs := eoiTaken_of_read hinv h
  obtain ⟨-, -, -, rfl⟩ | ⟨-, b, -, -, rfl⟩ | ⟨-, hx, -⟩ := read_cases h
  · simp [hs] at he
  · simp [hs] at he
  · exact hx

theorem phase_ne_error_of_read (h : s.read = some (x, u)) : s.phase ≠ .error := by
  intro hp
  exact readKind_of_read h (by rw [hp]; rfl)

theorem err_eq_none_of_read (hinv : s.Inv) (h : s.read = some (x, u)) : u.err = .none := by
  have hframe : u.err = s.err := by rw [read_frame h]
  rw [hframe]
  by_contra he
  exact phase_ne_error_of_read h (hinv.errIff.mp he)

theorem effectOf_pushback (hx : i.symbol? = some x) (hu : u.laValid = false) (h : (effectOf i s u).laValid = true) :
    (effectOf i s u).phase = .decBFirst := by
  cases i <;> simp [effectOf, Instr.symbol?, hu] at hx h ⊢

theorem effectOf_err_iff (hx : i.symbol? = some x) (he : u.err = .none) (hp : u.phase ≠ .error) :
    (effectOf i s u).err ≠ .none ↔ (effectOf i s u).phase = .error := by
  cases i <;> simp [effectOf, Instr.symbol?, he, hp, errOf_ne_none] at hx ⊢

theorem effectOf_eoiTaken (hx : i.symbol? = some x) (s u : State) : (effectOf i s u).mem.eoiTaken = u.mem.eoiTaken := by
  cases i <;> simp [effectOf, Instr.symbol?] at hx ⊢

/-- The transitions on `EOI` are the last of an operation. -/
theorem effectOf_phase_of_eoi (hx : i.symbol? = some .eoi) :
    (effectOf i s u).phase = .done ∨ (effectOf i s u).phase = .error := by
  cases i <;> simp [effectOf, Instr.symbol?] at hx ⊢

/-- A run is open in the scan only, and no transition leaves it with length 0 (R76). -/
theorem effectOf_openRun (hinv : s.Inv) (hx : i.symbol? = some x) (ha : admits s.ctx i = true) (hr : s.read = some (x, u))
    (h : (effectOf i s u).runOpen = true) :
    (effectOf i s u).phase = .encScan ∧ 1 ≤ (effectOf i s u).runLen.toNat := by
  rw [read_frame hr] at h ⊢
  have hopen := hinv.openRun
  cases i
  case scanExtend b =>
    obtain ⟨hp, -, -, hshort⟩ := admits_scanExtend_iff.mp ha
    have hnext : (s.runLen + 1).toNat = s.runLen.toNat + 1 := BitVec.toNat_add_of_lt (Nat.succ_lt_succ hshort)
    exact ⟨hp, hnext ▸ Nat.le_add_left 1 _⟩
  all_goals simp [effectOf, admits, Instr.symbol?] at hx ha h ⊢
  case scanFirst => exact ha.1
  case scanCap => exact ha.1.1.1
  case scanBreak => exact ha.1.1
  all_goals exact absurd (hopen h).1 (by simp [ha])

theorem transition_keeps_inv (hx : i.symbol? = some x) (h : exec i s = .next t) (hinv : s.Inv) : t.Inv := by
  obtain ⟨-, ha, u, hr, rfl⟩ := exec_transition_next hx h
  have herr : u.err = .none := err_eq_none_of_read hinv hr
  have hphase : u.phase ≠ .error := by rw [read_phase hr]; exact phase_ne_error_of_read hr
  refine ⟨effectOf_openRun hinv hx ha hr, effectOf_pushback hx (read_empties hinv hr), effectOf_err_iff hx herr hphase, ?eoi,
    effectOf_wf i u hinv.streams (read_wf hr hinv.streams)⟩
  case eoi =>
    intro he
    rw [effectOf_eoiTaken hx] at he
    obtain rfl := eoi_of_read_eoiTaken hinv hr he
    exact effectOf_phase_of_eoi hx

/-- Whatever the state before, a command leaves one that meets the invariants. -/
theorem commandEffect_inv (hi : IsCommand i) (s : State) : (commandEffect i s.accept).Inv := by
  obtain rfl | rfl | rfl := hi
  case inr.inr => exact ⟨nofun, nofun, by simp [commandEffect], nofun, accept_wf⟩
  all_goals exact ⟨nofun, nofun, by simp [commandEffect], nofun, outWrite_wf (s := s.accept) _ accept_wf⟩

theorem applyReset_inv (hinv : s.Inv) : s.applyReset.Inv :=
  ⟨nofun, nofun, by simp, nofun, applyReset_wf hinv.streams⟩

theorem withHost_inv (hinv : s.Inv) (l : List HostEvent) : (s.withHost l).Inv :=
  ⟨hinv.openRun, hinv.pushback, hinv.errIff, hinv.eoiEnds, hinv.streams⟩

/-! ## The obligations -/

theorem reset_inv : State.reset.Inv := ⟨nofun, nofun, by decide, nofun, reset_mem_wf⟩

/-- Settles O42: no register has a value an invariant speaks of, and in `IDLE` there is no progress to speak of. -/
theorem invariantsHoldAtReset : Obligations.InvariantsHoldAtReset :=
  ⟨reset_inv, trivial⟩

/-- Settles O43: the host's acts and each transition keep the invariants. -/
theorem stepKeepsTheInvariant : Obligations.StepKeepsTheInvariant := by
  refine fun s t => step_keeps (fun s l h => withHost_inv h l) (fun s => applyReset_inv) ?command
    (fun i x s t => transition_keeps_inv)
  case command => exact fun i s o hi _ _ => commandEffect_inv hi (s.attach o)

/-- In `ERROR` the core has no step of its own (R12). -/
theorem coreStep_in_error (hp : s.phase = .error) : s.coreStep = .next s :=
  coreStep_of_fetch_none (fetch_none_of_ready (cmdReady_iff.mpr (.inr (.inr hp))))

theorem commandEffect_err (hi : IsCommand i) (s : State) : (commandEffect i s.accept).err = .none := by
  obtain rfl | rfl | rfl := hi <;> rfl

/-- Settles O45: the core does nothing in `ERROR`, and an error is recorded in `ERROR` only. -/
theorem errorIsLeftByCommandOrResetOnly : Obligations.ErrorIsLeftByCommandOrResetOnly := by
  intro s t h
  obtain ⟨l, hhost, rfl⟩ | ⟨w, o, l, hhost, -, rfl⟩ | ⟨l, -, hcore⟩ := step_next h
  case inl => exact ⟨fun _ _ hno => absurd hhost (hno l), fun _ _ => .inr rfl⟩
  case inr.inl =>
    exact ⟨fun _ hno _ => absurd hhost (hno w o l), fun _ _ => .inr (commandEffect_err (isCommand_decodeCmd w) _)⟩
  case inr.inr =>
    have hstays (hp : s.phase = .error) : t = s.withHost l :=
      Host.Outcome.next.inj (hcore.symm.trans (coreStep_in_error hp))
    exact ⟨fun hp _ _ => by rw [hstays hp]; rfl, fun hinv he => .inl (by rw [hstays (hinv.errIff.mp he)]; rfl)⟩

end Sys2Proof.Machine
end

section
/-! PROOF. Registers without a value are never read (R24, R26): states that differ in such registers only fetch the same, and each
transition leads them to states that differ in such registers only. -/

namespace Sys2Proof.Machine

variable {i : Instr} {x : Symbol} {s t u v : State} {l : List HostEvent}

/-! ## What is read and fetched -/

theorem State.SameLive.symm (h : s.SameLive t) : t.SameLive s where
  phase := h.phase.symm
  err := h.err.symm
  runOpen := h.runOpen.symm
  laValid := h.laValid.symm
  mem := h.mem.symm
  host := h.host.symm
  tokenGrain := h.tokenGrain.symm
  method := fun hb hp => (h.method (by simpa only [State.busy, h.phase] using hb) (h.phase.symm ▸ hp)).symm
  cur := fun ho => (h.cur (h.runOpen.trans ho)).symm
  runLen := fun ho => (h.runLen (h.runOpen.trans ho)).symm
  cnt := fun hp => (h.cnt (h.phase.trans hp)).symm
  b1 := fun hp => (h.b1 (h.phase.symm ▸ hp)).symm
  laByte := fun hl => (h.laByte (h.laValid.trans hl)).symm

theorem State.SameLive.cmdReady (h : s.SameLive t) : s.cmdReady = t.cmdReady := by
  simp only [State.cmdReady, h.phase]

theorem State.SameLive.lookahead (h : s.SameLive t) : s.lookahead = t.lookahead := by
  cases hl : s.laValid with
  | false => rw [lookahead_unbuffered hl, lookahead_unbuffered (h.laValid.symm.trans hl), h.mem]
  | true => rw [lookahead_buffered hl, lookahead_buffered (h.laValid.symm.trans hl), h.mem, h.laByte hl]

theorem State.SameLive.peekIn (h : s.SameLive t) : s.peekIn = t.peekIn := by
  simp only [State.peekIn, h.mem]

theorem State.SameLive.peekDec (h : s.SameLive t) : s.peekDec = t.peekDec := by
  cases hl : s.laValid with
  | false => simp [State.peekDec, hl, ← h.laValid, h.peekIn]
  | true => simp [State.peekDec, hl, ← h.laValid, h.laByte hl]

theorem State.SameLive.peek (h : s.SameLive t) : s.peek = t.peek := by
  simp only [State.peek, h.phase, h.peekIn, h.peekDec]

/-- The columns of R62 look at the registers of the run while one is open, and at `b1` in `DEC_B_SECOND`. -/
theorem State.SameLive.admits (h : s.SameLive t) (ha : admits s.ctx i = true) : admits t.ctx i = true := by
  have hrun (ho : s.runOpen = true) : s.cur = t.cur ∧ s.runLen = t.runLen := ⟨h.cur ho, h.runLen ho⟩
  have hb1 (hp : s.phase = .decBSecond) : s.b1 = t.b1 := h.b1 (.inl hp)
  cases i
  case scanExtend =>
    obtain ⟨hp, ho, hb, hshort⟩ := admits_scanExtend_iff.mp ha
    obtain ⟨hcur, hlen⟩ := hrun ho
    exact admits_scanExtend_iff.mpr ⟨h.phase.symm.trans hp, h.runOpen.symm.trans ho, hb.trans hcur,
      lt_of_eq_of_lt (congrArg BitVec.toNat hlen.symm) hshort⟩
  all_goals simp only [Sys2Proof.admits, State.ctx_phase, State.ctx_runOpen, State.ctx_cur, State.ctx_runLen, State.ctx_b1,
    Bool.and_eq_true, beq_iff_eq, ← h.phase, ← h.runOpen] at ha ⊢
  case scanCap =>
    obtain ⟨hcur, hlen⟩ := hrun ha.1.1.2
    rwa [← hcur, ← hlen]
  case scanBreak => rwa [← (hrun ha.1.2).1]
  case dbLit | dbPair => rwa [← hb1 ha.1]
  all_goals exact ha

theorem State.SameLive.fetchSymbol (h : s.SameLive t) (hf : s.fetchSymbol = some i) : t.fetchSymbol = some i := by
  obtain ⟨x, hk, hx, hwf, ha⟩ := fetchSymbol_eq_some_iff.mp hf
  exact fetchSymbol_eq_some_iff.mpr ⟨x, h.peek ▸ hk, hx, hwf, h.admits ha⟩

theorem State.SameLive.wholeToken (h : s.SameLive t) (hi : s.WholeToken i) : t.WholeToken i := by
  simpa only [State.WholeToken, h.phase, h.mem, h.lookahead] using hi

theorem State.SameLive.fetch (h : s.SameLive t) (hf : s.fetch = some i) : t.fetch = some i := by
  obtain ⟨hgrain, j, htoken, hj⟩ | ⟨hno, hsymbol⟩ := fetch_cases (s := s)
  · rw [fetch_of_wholeToken (h.tokenGrain ▸ hgrain) (h.wholeToken htoken), ← hj, hf]
  · have hno' : t.tokenGrain = false ∨ ∀ i, ¬t.WholeToken i :=
      hno.imp (fun hg => h.tokenGrain ▸ hg) fun hno i hi => hno i (h.symm.wholeToken hi)
    rw [fetch_of_no_token hno']
    exact h.fetchSymbol (hsymbol ▸ hf)

theorem State.SameLive.fetch_eq (h : s.SameLive t) : s.fetch = t.fetch :=
  Option.ext fun _ => ⟨h.fetch, h.symm.fetch⟩

/-! ## A transition -/

/-- The registers a transition's effect looks at are those its read has left. -/
theorem effectOf_read (hx : i.symbol? = some x) (hr : s.read = some (x, u)) : effectOf i s u = effectOf i u u := by
  rw [read_frame hr]
  cases i <;> simp only [Instr.symbol?, reduceCtorEq] at hx
  all_goals rfl

theorem State.SameLive.read (h : s.SameLive t) (hs : s.read = some (x, u)) (ht : t.read = some (x, v)) : u.SameLive v := by
  obtain ⟨hl, hk, -, rfl⟩ | ⟨hl, b, hx, -, rfl⟩ | ⟨hl, hx, -, -, rfl⟩ := read_cases hs
  · obtain ⟨-, -, -, rfl⟩ | ⟨hl', -⟩ | ⟨hl', -⟩ := read_cases ht
    · exact { h with laValid := rfl, laByte := nofun }
    all_goals
      rw [← h.phase, ← h.laValid] at hl'
      simp [hl' hk] at hl
  · obtain ⟨hl', hk, -⟩ | ⟨-, b', -, -, rfl⟩ | ⟨-, hx', -⟩ := read_cases ht
    · rw [← h.phase] at hk
      rw [← h.laValid, hl hk] at hl'
      cases hl'
    · exact { h with mem := by rw [h.mem] }
    · simp [hx] at hx'
  · obtain ⟨hl', hk, -⟩ | ⟨-, b', hx', -⟩ | ⟨-, -, -, -, rfl⟩ := read_cases ht
    · rw [← h.phase] at hk
      rw [← h.laValid, hl hk] at hl'
      cases hl'
    · simp [hx] at hx'
    · exact { h with mem := by rw [h.mem] }

theorem State.SameLive.outWrite (h : s.SameLive t) {a b : List Byte} (hab : a = b) : (s.outWrite a).SameLive (t.outWrite b) :=
  { h with mem := by rw [State.outWrite_mem, State.outWrite_mem, h.mem, hab] }

/-- Into a phase an operation has ended in: no register but those of an open run has a value (R11). -/
theorem State.SameLive.toEnd (h : s.SameLive t) {p : Phase} (hp : p.acceptsCommand = true) :
    ({ s with phase := p } : State).SameLive { t with phase := p } := by
  cases p <;> cases hp
  all_goals exact { h with phase := rfl, method := nofun, cnt := nofun, b1 := nofun }

/-- Into a phase in which the method has a value, and neither the count nor the byte held has one. -/
theorem State.SameLive.toBoundary (h : s.SameLive t) {p : Phase} (hp : p = .decACnt ∨ p = .decBFirst)
    (hm : s.method = t.method) : ({ s with phase := p } : State).SameLive { t with phase := p } := by
  obtain rfl | rfl := hp
  all_goals exact { h with phase := rfl, method := fun _ _ => hm, cnt := nofun, b1 := nofun }

theorem State.SameLive.raiseError (h : s.SameLive t) (k : ErrorKind) : (s.raiseError k).SameLive (t.raiseError k) :=
  { h.toEnd (p := .error) rfl with err := rfl }

/-- The method has a value in every phase that runs but `DEC_TAG`. -/
theorem State.SameLive.method_of_phase (h : s.SameLive t) {p : Phase} (hp : s.phase = p) (htag : p ≠ .decTag)
    (hrun : p.acceptsCommand = false) : s.method = t.method := by
  subst hp
  exact h.method (busy_eq_not_cmdReady.trans (by rw [State.cmdReady, hrun]; rfl)) htag

/-- Each effect makes live what it has just set, or what had a value before; and it writes what had a value before. -/
theorem State.SameLive.effectOf (h : s.SameLive t) (hx : i.symbol? = some x) (ha : Sys2Proof.admits s.ctx i = true) :
    (effectOf i s s).SameLive (effectOf i t t) := by
  have hmethod {p : Phase} := h.method_of_phase (p := p)
  cases i
  case scanExtend => exact { h with runLen := fun ho => congrArg (· + 1) (h.runLen ho) }
  all_goals simp [Instr.symbol?, Sys2Proof.admits] at hx ha
  case scanFirst => exact { h with cur := fun _ => rfl, runLen := fun _ => rfl, runOpen := rfl }
  case scanCap =>
    obtain ⟨⟨⟨hp, ho⟩, -⟩, -⟩ := ha
    have htok : tok s.method s.cur Config.runCap = tok t.method t.cur Config.runCap := by
      rw [hmethod hp (by decide) rfl, h.cur ho]
    have hone : ({ s with runLen := 1 } : State).SameLive { t with runLen := 1 } := { h with runLen := fun _ => rfl }
    exact hone.outWrite htok
  case scanBreak =>
    obtain ⟨⟨hp, ho⟩, -⟩ := ha
    have htok : tok s.method s.cur s.runLen = tok t.method t.cur t.runLen := by
      rw [hmethod hp (by decide) rfl, h.cur ho, h.runLen ho]
    have hone (b : Byte) : ({ s with cur := b, runLen := 1 } : State).SameLive { t with cur := b, runLen := 1 } :=
      { h with cur := fun _ => rfl, runLen := fun _ => rfl }
    exact (hone _).outWrite htok
  case scanEnd =>
    have htok : (if s.runOpen then tok s.method s.cur s.runLen else []) =
        if t.runOpen then tok t.method t.cur t.runLen else [] := by
      cases ho : s.runOpen with
      | false => rw [← h.runOpen, ho]; rfl
      | true => rw [← h.runOpen, ho, hmethod ha (by decide) rfl, h.cur ho, h.runLen ho]
    have hclosed : ({ s with runOpen := false, phase := .done } : State).SameLive { t with runOpen := false, phase := .done } :=
      { h.toEnd (p := .done) rfl with runOpen := rfl, cur := nofun, runLen := nofun }
    exact hclosed.outWrite htok
  case tagA => exact { h with phase := rfl, method := fun _ _ => rfl, cnt := nofun, b1 := nofun }
  case tagB => exact { h with phase := rfl, method := fun _ _ => rfl, cnt := nofun, b1 := nofun }
  case tagIll | tagEoi | daTrunc | dbTrunc => exact h.raiseError _
  case daEnd | dbEnd0 => exact h.toEnd rfl
  case daCount =>
    exact { h with phase := rfl, method := fun _ _ => hmethod ha (by decide) rfl, cnt := fun _ => rfl, b1 := nofun }
  case daValue =>
    exact (h.toBoundary (.inl rfl) (hmethod ha (by decide) rfl)).outWrite (by rw [h.cnt ha])
  case dbFirst =>
    exact { h with phase := rfl, method := fun _ _ => hmethod ha (by decide) rfl, cnt := nofun, b1 := fun _ => rfl }
  case dbLit =>
    have hlit : [s.b1] = [t.b1] := by rw [h.b1 (.inl ha.1)]
    have hwritten := (h.toBoundary (.inr rfl) (hmethod ha.1 (by decide) rfl)).outWrite hlit
    exact { hwritten with laByte := fun _ => rfl, laValid := rfl }
  case dbPair =>
    exact { h with phase := rfl, method := fun _ _ => hmethod ha.1 (by decide) rfl, cnt := nofun,
                   b1 := fun _ => h.b1 (.inl ha.1) }
  case dbEnd1 => exact (h.toEnd rfl).outWrite (by rw [h.b1 (.inl ha)])
  case dbCount =>
    exact (h.toBoundary (.inr rfl) (hmethod ha (by decide) rfl)).outWrite (by rw [h.b1 (.inr ha)])

theorem State.SameLive.transition (h : s.SameLive t) (hx : i.symbol? = some x) (hs : exec i s = .next u)
    (ht : exec i t = .next v) : u.SameLive v := by
  obtain ⟨-, ha, s', hrs, rfl⟩ := exec_transition_next hx hs
  obtain ⟨-, -, t', hrt, rfl⟩ := exec_transition_next hx ht
  rw [effectOf_read hx hrs, effectOf_read hx hrt]
  have hctx : s'.ctx = s.ctx := by rw [read_frame hrs]; rfl
  exact (h.read hrs hrt).effectOf hx (hctx ▸ ha)

/-! ## A step -/

/-- A token is the same transitions from both states. -/
theorem State.SameLive.exec (h : s.SameLive t) (hi : ¬IsCommand i) (hs : exec i s = .next u) (ht : exec i t = .next v) :
    u.SameLive v := by
  cases hx : i.symbol? with
  | some x => exact h.transition hx hs ht
  | none =>
    cases i <;> simp only [Instr.symbol?, reduceCtorEq] at hx
    case encA | encB | dec => exact absurd (by simp [IsCommand]) hi
    case aPair c w =>
      obtain ⟨s₁, hs₁, hs₂⟩ := andThen_next hs
      obtain ⟨t₁, ht₁, ht₂⟩ := andThen_next ht
      exact (h.transition (i := .daCount c) rfl hs₁ ht₁).transition (i := .daValue w) rfl hs₂ ht₂
    case bLit w =>
      obtain ⟨s₁, hs₁, hs₂⟩ := andThen_next hs
      obtain ⟨t₁, ht₁, ht₂⟩ := andThen_next ht
      have h₁ := h.transition (i := .dbFirst w) rfl hs₁ ht₁
      rw [← h₁.peek] at ht₂
      cases hk : s₁.peek with
      | none => rw [hk] at hs₂; cases hs₂
      | some y =>
        rw [hk] at hs₂ ht₂
        cases y with
        | byte b => exact h₁.transition (i := .dbLit b) rfl hs₂ ht₂
        | eoi => exact h₁.transition (i := .dbEnd1) rfl hs₂ ht₂
    case bRun w c =>
      obtain ⟨s₁, hs₁, hs'⟩ := andThen_next hs
      obtain ⟨t₁, ht₁, ht'⟩ := andThen_next ht
      obtain ⟨s₂, hs₂, hs₃⟩ := andThen_next hs'
      obtain ⟨t₂, ht₂, ht₃⟩ := andThen_next ht'
      have h₁ := h.transition (i := .dbFirst w) rfl hs₁ ht₁
      exact (h₁.transition (i := .dbPair w) rfl hs₂ ht₂).transition (i := .dbCount c) rfl hs₃ ht₃

theorem not_isCommand_of_fetch (h : s.fetch = some i) : ¬IsCommand i := by
  obtain ⟨-, j, htoken, hj⟩ | ⟨-, hsymbol⟩ := fetch_cases (s := s)
  · obtain rfl : j = i := Option.some.inj (hj.symm.trans h)
    exact not_isCommand_of_wholeToken htoken
  · obtain ⟨x, -, hx, -⟩ := fetchSymbol_eq_some_iff.mp (hsymbol.symm.trans h)
    rintro (rfl | rfl | rfl) <;> cases hx

theorem State.SameLive.coreStep (h : s.SameLive t) (hs : s.coreStep = .next u) (ht : t.coreStep = .next v) :
    u.SameLive v := by
  cases hf : s.fetch with
  | none =>
    cases (coreStep_of_fetch_none hf).symm.trans hs
    cases (coreStep_of_fetch_none (h.fetch_eq ▸ hf)).symm.trans ht
    exact h
  | some i =>
    exact h.exec (not_isCommand_of_fetch hf) ((coreStep_of_fetch hf).symm.trans hs)
      ((coreStep_of_fetch (h.fetch hf)).symm.trans ht)

theorem State.SameLive.withHost (h : s.SameLive t) (l : List HostEvent) : (s.withHost l).SameLive (t.withHost l) :=
  { h with host := rfl }

theorem State.SameLive.attach (h : s.SameLive t) (o : Option Stream) : (s.attach o).SameLive (t.attach o) := by
  cases o with
  | none => exact h
  | some st => exact { h with mem := by rw [State.attach_some_mem, State.attach_some_mem, h.mem] }

/-- Reset and the acceptance of a command alike clear the flags that make registers live. -/
theorem State.SameLive.accept (h : s.SameLive t) : s.accept.SameLive t.accept :=
  { h with err := rfl, runOpen := rfl, laValid := rfl, mem := by rw [State.accept_mem, State.accept_mem, h.mem],
           cur := nofun, runLen := nofun, laByte := nofun }

theorem State.SameLive.applyReset (h : s.SameLive t) : s.applyReset.SameLive t.applyReset :=
  { h with phase := rfl, err := rfl, runOpen := rfl, laValid := rfl,
           mem := by rw [State.applyReset_mem, State.applyReset_mem, h.mem],
           method := nofun, cur := nofun, runLen := nofun, cnt := nofun, b1 := nofun, laByte := nofun }

/-- An encode command sets the method; after `DEC` the method has no value. -/
theorem State.SameLive.commandEffect (h : s.SameLive t) (hi : IsCommand i) :
    (commandEffect i s).SameLive (commandEffect i t) := by
  have hscan (m : Method) :
      ({ s with method := m, phase := .encScan } : State).SameLive { t with method := m, phase := .encScan } :=
    { h with phase := rfl, method := fun _ _ => rfl, cnt := nofun, b1 := nofun }
  obtain rfl | rfl | rfl := hi
  · exact (hscan .A).outWrite rfl
  · exact (hscan .B).outWrite rfl
  · exact { h with phase := rfl, method := fun _ hp => absurd rfl hp, cnt := nofun, b1 := nofun }

/-- Settles O48: the same act is due in both states, and whatever it is it leads to states that agree in the same sense. -/
theorem valuelessRegistersAreNeverRead : Obligations.ValuelessRegistersAreNeverRead := by
  intro s t s' t' h hs ht
  obtain ⟨l, hhost⟩ | ⟨w, o, l, hhost, hc⟩ | ⟨l, hno⟩ := host_cases s
  · cases (step_of_reset hhost).symm.trans hs
    cases (step_of_reset (h.host ▸ hhost)).symm.trans ht
    exact (h.withHost l).applyReset
  · cases (step_of_command_ready hhost hc).symm.trans hs
    cases (step_of_command_ready (h.host ▸ hhost) (h.cmdReady ▸ hc)).symm.trans ht
    exact ((h.withHost l).attach o).accept.commandEffect (isCommand_decodeCmd w)
  · have hno' : NoActDue t l := by simpa only [NoActDue, ← h.host, ← h.cmdReady] using hno
    exact (h.withHost l).coreStep ((step_of_noActDue hno).symm.trans hs) ((step_of_noActDue hno').symm.trans ht)

end Sys2Proof.Machine
end

section
/-! PROOF. Progress (R23 item 5, R78, R136, R148). What an operation will still write is a function of what it holds and of what it
has not read; each transition turns the front of that function's value into output. -/

namespace Sys2Proof.Machine

variable {i : Instr} {x : Symbol} {s t u : State} {l : List Byte}

/-! ## What is still to come -/

/-- The error kind a register value stands for; `NONE` stands for none and gets a kind all the same. -/
def kindOf : Err → ErrorKind
  | .unknownMethod => .unknownMethod
  | .none | .malformedStream => .malformedStream

@[simp] theorem kindOf_errOf (k : ErrorKind) : kindOf (errOf k) = k := by cases k <;> rfl

theorem errOf_kindOf {e : Err} (h : e ≠ .none) : errOf (kindOf e) = e := by
  cases e with
  | none => exact absurd rfl h
  | unknownMethod => rfl
  | malformedStream => rfl

/-- How an operation ends and what it still writes, by the whole-stream functions, if the bytes to come are `l` (R78, R122 to
R124). -/
def State.futureOn (s : State) (l : List Byte) : Result × List Byte :=
  match s.phase with
  | .idle | .done => (.done, [])
  | .encScan => (.done, payload s.method (s.openRunBytes ++ l))
  | .decTag => decodeStream l
  | .decACnt => decA l
  | .decAVal => decA (s.cnt :: l)
  | .decBFirst => decB l
  | .decBSecond => decB (s.b1 :: l)
  | .decBCnt => decB (s.b1 :: s.b1 :: l)
  | .error => (.error (kindOf s.err), [])

/-- The same for the bytes that are to come. -/
def State.future (s : State) : Result × List Byte := s.futureOn s.lookahead

/-- What a read takes from the bytes to come. -/
def bytesOf : Symbol → List Byte
  | .byte b => [b]
  | .eoi => []

theorem rest_of_getElem?_some {b : Byte} (h : s.mem.src[s.mem.ipos]? = some b) :
    s.mem.rest = b :: s.mem.src.drop (s.mem.ipos + 1) := drop_ipos_of_getElem? h

theorem rest_of_getElem?_none (h : s.mem.src[s.mem.ipos]? = none) : s.mem.rest = [] :=
  List.drop_eq_nil_of_le (List.getElem?_eq_none_iff.mp h)

/-- A read takes its symbol from the front of the bytes to come, and `EOI` where there are none. -/
theorem read_lookahead (hinv : s.Inv) (h : s.read = some (x, u)) :
    s.lookahead = bytesOf x ++ u.mem.rest ∧ (x = .eoi → u.mem.rest = []) := by
  have hempty (hno : readKind s.phase = .decRead → s.laValid = false) : s.laValid = false := by
    by_contra hl
    have hl : s.laValid = true := by simpa using hl
    simp [hno (by rw [hinv.pushback hl]; rfl)] at hl
  obtain ⟨hl, -, rfl, rfl⟩ | ⟨hno, b, rfl, hb, rfl⟩ | ⟨hno, rfl, hn, -, rfl⟩ := read_cases h
  · exact ⟨lookahead_buffered hl, nofun⟩
  · exact ⟨by rw [lookahead_unbuffered (hempty hno), rest_of_getElem?_some hb]; rfl, nofun⟩
  · have hrest := rest_of_getElem?_none hn
    exact ⟨by rw [lookahead_unbuffered (hempty hno)]; rfl, fun _ => hrest⟩

/-- No read changes what the bytes to come are worth. -/
theorem read_future (hinv : s.Inv) (h : s.read = some (x, u)) : s.future = u.futureOn (bytesOf x ++ u.mem.rest) := by
  rw [State.future, (read_lookahead hinv h).1, read_frame h]
  rfl

/-! ## One transition -/

/-- What `t` has written beyond `s` is the front of what `s` had still to write; the rest is still to come. -/
def Delivers (s t : State) : Prop := ∃ out, t.mem.sink = s.mem.sink ++ out ∧ s.future = after out t.future

theorem Delivers.refl (s : State) : Delivers s s := ⟨[], (List.append_nil _).symm, rfl⟩

theorem Delivers.trans (h : Delivers s u) (h' : Delivers u t) : Delivers s t := by
  obtain ⟨a, hsink, hfut⟩ := h
  obtain ⟨b, hsink', hfut'⟩ := h'
  exact ⟨a ++ b, by rw [hsink', hsink, List.append_assoc], by rw [hfut, hfut', after_after]⟩

theorem openRunBytes_open (h : s.runOpen = true) : s.openRunBytes = rep s.runLen.toNat s.cur := by
  simp [State.openRunBytes, h]

theorem openRunBytes_closed (h : s.runOpen = false) : s.openRunBytes = [] := by
  simp [State.openRunBytes, h]

theorem future_unbuffered (hl : s.laValid = false) : s.future = s.futureOn s.mem.rest := by
  rw [State.future, lookahead_unbuffered hl]

theorem futureOn_encScan (hp : s.phase = .encScan) (l : List Byte) :
    s.futureOn l = (.done, payload s.method (s.openRunBytes ++ l)) := by
  simp only [State.futureOn, hp]

theorem futureOn_decTag (hp : s.phase = .decTag) (l : List Byte) : s.futureOn l = decodeStream l := by
  simp only [State.futureOn, hp]

theorem futureOn_decACnt (hp : s.phase = .decACnt) (l : List Byte) : s.futureOn l = decA l := by
  simp only [State.futureOn, hp]

theorem futureOn_decAVal (hp : s.phase = .decAVal) (l : List Byte) : s.futureOn l = decA (s.cnt :: l) := by
  simp only [State.futureOn, hp]

theorem futureOn_decBFirst (hp : s.phase = .decBFirst) (l : List Byte) : s.futureOn l = decB l := by
  simp only [State.futureOn, hp]

theorem futureOn_decBSecond (hp : s.phase = .decBSecond) (l : List Byte) : s.futureOn l = decB (s.b1 :: l) := by
  simp only [State.futureOn, hp]

theorem futureOn_decBCnt (hp : s.phase = .decBCnt) (l : List Byte) : s.futureOn l = decB (s.b1 :: s.b1 :: l) := by
  simp only [State.futureOn, hp]

/-- A state that has read a symbol is worth what its transition writes and then what that leads to. -/
def Accounts (i : Instr) (x : Symbol) (u : State) : Prop :=
  ∃ out, (effectOf i u u).mem.sink = u.mem.sink ++ out ∧
    u.futureOn (bytesOf x ++ u.mem.rest) = after out (effectOf i u u).future

/-- Where the effect is that the state becomes `v`, with nothing pushed back and the source as it was. -/
theorem accounts_of_effect {v : State} (hv : effectOf i u u = v) (out : List Byte) (hsink : v.mem.sink = u.mem.sink ++ out)
    (hl : v.laValid = false) (hrest : v.mem.rest = u.mem.rest)
    (h : u.futureOn (bytesOf x ++ u.mem.rest) = after out (v.futureOn u.mem.rest)) : Accounts i x u :=
  ⟨out, hv ▸ hsink, by rw [hv, future_unbuffered hl, hrest, h]⟩

/-- In the scan the effect leads back to the scan: the bytes of the run held and those read are reported or still held. -/
theorem accounts_of_scan {v : State} (hp : u.phase = .encScan) (hv : effectOf i u u = v) (hpv : v.phase = .encScan)
    (hm : v.method = u.method) (out : List Byte) (hsink : v.mem.sink = u.mem.sink ++ out) (hl : v.laValid = false)
    (hrest : v.mem.rest = u.mem.rest)
    (h : payload u.method (u.openRunBytes ++ (bytesOf x ++ u.mem.rest)) =
      out ++ payload u.method (v.openRunBytes ++ u.mem.rest)) : Accounts i x u := by
  refine accounts_of_effect hv out hsink hl hrest ?_
  rw [futureOn_encScan hp, futureOn_encScan hpv, hm, h]
  rfl

/-- The scan (R71 to R75): the open run is held back, and its pair is reported where the run is cut. -/
theorem accounts_scan (hp : u.phase = .encScan) (hx : i.symbol? = some x) (ha : admits u.ctx i = true)
    (hl : u.laValid = false) (hrun : u.runOpen = true → 1 ≤ u.runLen.toNat) (heoi : x = .eoi → u.mem.rest = []) :
    Accounts i x u := by
  cases i
  case scanExtend b =>
    obtain ⟨-, ho, hb, hshort⟩ := admits_scanExtend_iff.mp ha
    obtain rfl : .byte b = x := Option.some.inj hx
    obtain rfl : b = u.cur := hb
    have hnext : (u.runLen + 1).toNat = u.runLen.toNat + 1 := BitVec.toNat_add_of_lt (Nat.succ_lt_succ hshort)
    refine accounts_of_scan hp rfl hp rfl [] (List.append_nil _).symm hl rfl ?_
    rw [openRunBytes_open ho, openRunBytes_open (s := effectOf (.scanExtend u.cur) u u) ho]
    show _ = payload u.method (rep (u.runLen + 1).toNat u.cur ++ u.mem.rest)
    rw [hnext, rep_succ', List.append_assoc]
    rfl
  all_goals simp [Instr.symbol?, admits, hp] at hx ha
  all_goals subst hx
  case scanFirst b =>
    refine accounts_of_scan hp rfl hp rfl [] (List.append_nil _).symm hl rfl ?_
    rw [openRunBytes_closed ha]
    rfl
  case scanCap b =>
    obtain ⟨⟨ho, rfl⟩, hfull⟩ := ha
    refine accounts_of_scan hp rfl hp rfl _ rfl hl rfl ?_
    rw [openRunBytes_open ho, hfull, tok_eq_pairBytes _ _ _ (by decide)]
    refine (payload_full_append _ _ _).trans (congrArg _ (congrArg (payload u.method) ?_))
    exact congrArg (· ++ u.mem.rest) (openRunBytes_open (s := effectOf (.scanCap u.cur) u u) ho).symm
  case scanBreak b =>
    obtain ⟨ho, hb⟩ := ha
    refine accounts_of_scan hp rfl hp rfl _ rfl hl rfl ?_
    rw [openRunBytes_open ho, tok_eq_pairBytes _ _ _ (hrun ho)]
    refine (payload_rep_append _ _ _ (by simpa [bytesOf] using hb) _ (hrun ho) (Nat.le_of_lt_succ u.runLen.isLt)).trans
      (congrArg _ (congrArg (payload u.method) ?_))
    exact congrArg (· ++ u.mem.rest) (openRunBytes_open (s := effectOf (.scanBreak b) u u) ho).symm
  case scanEnd =>
    refine ⟨_, rfl, ?_⟩
    have hdone : (effectOf .scanEnd u u).future = (.done, []) := rfl
    rw [futureOn_encScan hp, heoi rfl, hdone]
    cases ho : u.runOpen with
    | false =>
      rw [openRunBytes_closed ho]
      exact congrArg (Prod.mk Result.done) (payload_nil _)
    | true =>
      rw [openRunBytes_open ho]
      have hflush : payload u.method (rep u.runLen.toNat u.cur ++ []) = tok u.method u.cur u.runLen ++ [] := by
        rw [payload_rep_append _ _ _ (by simp) _ (hrun ho) (Nat.le_of_lt_succ u.runLen.isLt), payload_nil,
          tok_eq_pairBytes _ _ _ (hrun ho)]
      exact congrArg (Prod.mk Result.done) hflush

/-- The decoders (R81 to R84, R92 to R98) and the dispatcher (R109 to R112): the symbol read is in front of the payload. -/
theorem accounts_decode (hp : u.phase ≠ .encScan) (hx : i.symbol? = some x) (hwf : i.wf = true) (ha : admits u.ctx i = true)
    (hl : u.laValid = false) (heoi : x = .eoi → u.mem.rest = []) : Accounts i x u := by
  have silent {v : State} (hv : effectOf i u u = v) (hsink : v.mem.sink = u.mem.sink) (hlv : v.laValid = false)
      (hrest : v.mem.rest = u.mem.rest) (h : u.futureOn (bytesOf x ++ u.mem.rest) = v.futureOn u.mem.rest) : Accounts i x u :=
    accounts_of_effect hv [] (by rw [hsink, List.append_nil]) hlv hrest h
  cases i <;> simp [Instr.symbol?, admits, hp] at hx ha
  all_goals subst hx
  case tagA | tagB => exact silent rfl rfl hl rfl (futureOn_decTag ha _)
  case tagIll b =>
    obtain ⟨hA, hB⟩ : b ≠ Config.tagA ∧ b ≠ Config.tagB := by simpa [Instr.wf] using hwf
    have hdec : decodeStream (b :: u.mem.rest) = (.error .unknownMethod, []) := by simp [decodeStream, hA, hB]
    exact silent rfl rfl hl rfl ((futureOn_decTag ha.1.1 _).trans hdec)
  case tagEoi =>
    refine silent rfl rfl hl rfl ?_
    rw [futureOn_decTag ha, heoi rfl]
    simp [bytesOf, decodeStream, effectOf, State.futureOn]
  case daCount => exact silent rfl rfl hl rfl (futureOn_decACnt ha _)
  case daEnd => exact silent rfl rfl hl rfl (by rw [futureOn_decACnt ha, heoi rfl]; rfl)
  case daValue => exact accounts_of_effect rfl _ rfl hl rfl ((futureOn_decAVal ha _).trans (decA_pair _ _ _))
  case daTrunc => exact silent rfl rfl hl rfl (by rw [futureOn_decAVal ha, heoi rfl]; rfl)
  case dbFirst => exact silent rfl rfl hl rfl (futureOn_decBFirst ha _)
  case dbEnd0 => exact silent rfl rfl hl rfl (by rw [futureOn_decBFirst ha, heoi rfl]; rfl)
  case dbLit => exact ⟨_, rfl, (futureOn_decBSecond ha.1 _).trans (decB_lit _ _ _ ha.2)⟩
  case dbPair =>
    obtain ⟨hsecond, rfl⟩ := ha
    exact silent rfl rfl hl rfl (futureOn_decBSecond hsecond _)
  case dbEnd1 => exact accounts_of_effect rfl _ rfl hl rfl (by rw [futureOn_decBSecond ha, heoi rfl]; rfl)
  case dbCount => exact accounts_of_effect rfl _ rfl hl rfl ((futureOn_decBCnt ha _).trans (decB_run _ _ _))
  case dbTrunc =>
    have hcut : decB [u.b1, u.b1] = (.error .malformedStream, []) := by simp [decB]
    exact silent rfl rfl hl rfl (by rw [futureOn_decBCnt ha, heoi rfl]; exact hcut)

theorem delivers_of_transition (hinv : s.Inv) (hx : i.symbol? = some x) (h : exec i s = .next t) : Delivers s t := by
  obtain ⟨hwf, ha, u, hr, rfl⟩ := exec_transition_next hx h
  obtain ⟨-, heoi⟩ := read_lookahead hinv hr
  have hl := read_empties hinv hr
  have hctx : s.ctx = u.ctx := by rw [read_frame hr]; rfl
  have haccounts : Accounts i x u := by
    by_cases hp : u.phase = .encScan
    · have hrun : u.runOpen = true → 1 ≤ u.runLen.toNat := by
        rw [read_frame hr]
        exact fun ho => (hinv.openRun ho).2
      exact accounts_scan hp hx (hctx ▸ ha) hl hrun heoi
    · exact accounts_decode hp hx hwf (hctx ▸ ha) hl heoi
  obtain ⟨out, hsink, hfut⟩ := haccounts
  exact ⟨out, by rw [effectOf_read hx hr, hsink, read_sink hr], by rw [effectOf_read hx hr, read_future hinv hr, hfut]⟩

/-! ## Progress is what has been written and what is still to come -/

theorem written_of_sink {out : List Byte} (hw : s.mem.wf) (hsink : t.mem.sink = s.mem.sink ++ out)
    (hbase : t.mem.base = s.mem.base) : t.written = s.written ++ out := by
  rw [State.written, hsink, hbase, List.drop_append_of_le_length hw.2.2]
  rfl

/-- Only in `DEC_B_FIRST` can a pushed-back byte be ahead of the source (R23 item 2). -/
theorem lookahead_of_phase (hinv : s.Inv) (hp : s.phase ≠ .decBFirst) : s.lookahead = s.mem.rest := by
  refine lookahead_unbuffered ?_
  by_contra hl
  exact hp (hinv.pushback (by simpa using hl))

theorem future_encScan (hinv : s.Inv) (hp : s.phase = .encScan) :
    s.future = (.done, payload s.method (s.openRunBytes ++ s.mem.rest)) := by
  rw [State.future, futureOn_encScan hp, lookahead_of_phase hinv (by simp [hp])]

theorem progress_encScan_iff (hinv : s.Inv) (hp : s.phase = .encScan) :
    s.Progress ↔ (Result.done, encodeStream s.method s.mem.src) = after s.written s.future := by
  rw [future_encScan hinv hp]
  simp [State.Progress, hp, after]

/-- A decode under way: the input decodes to what has been written and what is still to come. -/
theorem decode_of_progress (hinv : s.Inv) (hk : readKind s.phase ≠ .nothing) (hp : s.phase ≠ .encScan) (h : s.Progress) :
    decodeStream s.mem.src = after s.written s.future := by
  have hahead := lookahead_of_phase hinv
  unfold State.Progress at h
  unfold State.future State.futureOn
  cases hs : s.phase <;> simp only [hs, readKind, ne_eq, not_true_eq_false, reduceCtorEq, not_false_eq_true, forall_const]
    at h hk hp hahead ⊢
  case decTag =>
    obtain ⟨hpos, hwritten⟩ := h
    rw [hahead, hwritten, Memory.rest, hpos]
    rfl
  case decBFirst => exact h
  all_goals rwa [hahead]

theorem progress_of_decode (hinv : s.Inv) (hscan : s.phase ≠ .encScan) (htag : s.phase ≠ .decTag)
    (h : decodeStream s.mem.src = after s.written s.future) : s.Progress := by
  have hahead := lookahead_of_phase hinv
  have herr := hinv.errIff
  unfold State.future State.futureOn at h
  unfold State.Progress
  cases hs : s.phase <;> simp only [hs, ne_eq, not_true_eq_false, reduceCtorEq, not_false_eq_true, forall_const]
    at h hscan htag hahead herr ⊢
  case done => exact .inl (by rw [h, after, List.append_nil])
  case error => exact ⟨kindOf s.err, (errOf_kindOf (herr.mpr trivial)).symm, by rw [h, after, List.append_nil]⟩
  case decBFirst => exact h
  all_goals rwa [hahead] at h

/-! ## A step -/

theorem transition_from_scan (hp : s.phase = .encScan) (hx : i.symbol? = some x) (h : exec i s = .next t) :
    (t.phase = .encScan ∧ t.method = s.method) ∨ t.phase = .done := by
  obtain ⟨-, ha, u, hr, rfl⟩ := exec_transition_next hx h
  rw [read_frame hr]
  cases i <;> simp [admits, effectOf, Instr.symbol?, hp] at hx ha ⊢

theorem transition_from_decode (hp : s.phase ≠ .encScan) (hx : i.symbol? = some x) (h : exec i s = .next t) :
    t.phase ≠ .encScan ∧ t.phase ≠ .decTag := by
  obtain ⟨-, ha, u, hr, rfl⟩ := exec_transition_next hx h
  cases i <;> simp [admits, effectOf, Instr.symbol?, hp] at hx ha ⊢

theorem readKind_of_exec (hx : i.symbol? = some x) (h : exec i s = .next t) : readKind s.phase ≠ .nothing := by
  obtain ⟨-, -, u, hr, -⟩ := exec_transition_next hx h
  exact readKind_of_read hr

theorem transition_keeps_progress (hx : i.symbol? = some x) (h : exec i s = .next t) (hinv : s.Inv) (hs : s.Progress) :
    t.Progress := by
  have hinv' := transition_keeps_inv hx h hinv
  have hfwd := forward_of_transition hx h
  obtain ⟨out, hsink, hfut⟩ := delivers_of_transition hinv hx h
  have hwritten := written_of_sink hinv.streams hsink hfwd.base
  have hafter : after s.written s.future = after t.written t.future := by rw [hfut, after_after, hwritten]
  by_cases hp : s.phase = .encScan
  · have hwhole := (progress_encScan_iff hinv hp).mp hs
    rw [hafter, ← hfwd.src] at hwhole
    obtain ⟨hp', hm⟩ | hdone := transition_from_scan hp hx h
    · exact (progress_encScan_iff hinv' hp').mpr (hm ▸ hwhole)
    · have hnothing : t.future = (.done, []) := by simp only [State.future, State.futureOn, hdone]
      rw [hnothing, after, List.append_nil] at hwhole
      simp only [State.Progress, hdone]
      exact .inr ⟨s.method, (Prod.mk.inj hwhole).2⟩
  · have hwhole := decode_of_progress hinv (readKind_of_exec hx h) hp hs
    obtain ⟨hscan, htag⟩ := transition_from_decode hp hx h
    exact progress_of_decode hinv' hscan htag (by rw [hfwd.src, hwhole, hafter])

/-- A command begins an operation: of an encode the tag is written and the whole input is to come. -/
theorem commandEffect_progress (hi : IsCommand i) (s : State) : (commandEffect i s.accept).Progress := by
  obtain rfl | rfl | rfl := hi
  case inr.inr => exact ⟨rfl, List.drop_length⟩
  all_goals
    show encodeStream _ s.mem.rest = List.drop s.mem.sink.length (s.mem.sink ++ [tagByte _]) ++ _
    rw [List.drop_left]
    rfl

/-- Settles O44: together with the invariants, progress is kept by the host's acts and by each transition. -/
theorem stepKeepsProgress : Obligations.StepKeepsProgress := by
  intro s t hinv hs h
  refine (step_keeps (P := fun s => s.Inv ∧ s.Progress) (fun s l hs => ⟨withHost_inv hs.1 l, hs.2⟩)
    (fun s hs => ⟨applyReset_inv hs.1, trivial⟩) ?command ?transition ⟨hinv, hs⟩ h).2
  case command => exact fun i s o hi _ _ => ⟨commandEffect_inv hi _, commandEffect_progress hi _⟩
  case transition =>
    exact fun i x s t hx h hs => ⟨transition_keeps_inv hx h hs.1, transition_keeps_progress hx h hs.1 hs.2⟩

end Sys2Proof.Machine
end

section
/-! PROOF. Whole operations (R125, R134, R135): a quiet host lets the core run; an encode takes one step for each symbol, a decode
ends because the measure falls; and what has been delivered at the end is what was to come at the start. -/

namespace Sys2Proof.Machine

variable {i : Instr} {x : Symbol} {s t u : State} {l : List Byte} {P : State → Prop}

/-! ## Steps of one operation -/

/-- From `s` to `t` one operation has gone on: the same input, the same mark in the output, and what has been delivered. -/
structure Along (s t : State) : Prop where
  src      : t.mem.src = s.mem.src
  ends     : t.mem.ends = s.mem.ends
  base     : t.mem.base = s.mem.base
  delivers : Delivers s t

theorem Along.refl (s : State) : Along s s := ⟨rfl, rfl, rfl, .refl s⟩

theorem Along.trans (h : Along s u) (h' : Along u t) : Along s t :=
  ⟨h'.src.trans h.src, h'.ends.trans h.ends, h'.base.trans h.base, h.delivers.trans h'.delivers⟩

theorem along_withHost (s : State) (h : List HostEvent) : Along s (s.withHost h) := ⟨rfl, rfl, rfl, Delivers.refl s⟩

theorem along_of_transition (hinv : s.Inv) (hx : i.symbol? = some x) (h : exec i s = .next t) : Along s t := by
  have hfwd := forward_of_transition hx h
  exact ⟨hfwd.src, hfwd.ends, hfwd.base, delivers_of_transition hinv hx h⟩

/-- With a quiet host no act is due, and the host stays quiet. -/
theorem noActDue_of_quiet (hq : Quiet s.host) : ∃ h, NoActDue s h ∧ Quiet h := by
  cases hh : s.host with
  | nil => exact ⟨[], .inl ⟨hh, rfl⟩, nofun⟩
  | cons e h =>
    obtain ⟨rfl, hq⟩ : e = .wait ∧ Quiet h := by simpa [Quiet, hh] using hq
    exact ⟨h, .inr (.inl hh), hq⟩

/-! ## The outcome -/

/-- A state an operation has ended in has its outcome, and nothing is still to come. -/
theorem outcome_of_ended (hinv : s.Inv) (h : s.phase = .done ∨ s.phase = .error) :
    s.outcome = some ⟨s.future.1, s.written, s.mem.ipos, s.mem.eoiTaken⟩ ∧ s.future.2 = [] := by
  obtain hp | hp := h
  · simp only [State.outcome, State.future, State.futureOn, hp, and_self]
  · have herr := hinv.errIff.mpr hp
    cases he : s.err with
    | none => exact absurd he herr
    | unknownMethod => simp only [State.outcome, State.future, State.futureOn, hp, he, kindOf, and_self]
    | malformedStream => simp only [State.outcome, State.future, State.futureOn, hp, he, kindOf, and_self]

/-- At the end of an operation its result is the one that was to come, and so are the bytes it has written since. -/
theorem ended_along (hst : Along s t) (hw : s.mem.wf) (hinv : t.Inv) (h : t.phase = .done ∨ t.phase = .error) :
    t.outcome = some ⟨s.future.1, s.written ++ s.future.2, t.mem.ipos, t.mem.eoiTaken⟩ ∧
      t.mem.sink = s.mem.sink ++ s.future.2 := by
  obtain ⟨houtcome, hnil⟩ := outcome_of_ended hinv h
  obtain ⟨out, hsink, hfut⟩ := hst.delivers
  have hout : s.future.2 = out := by rw [hfut, after, hnil, List.append_nil]
  have hresult : s.future.1 = t.future.1 := by rw [hfut]; rfl
  rw [houtcome, hout, hresult, written_of_sink hw hsink hst.base]
  exact ⟨rfl, hsink⟩

/-! ## A step of a core that reads -/

/-- While the source has a symbol left, if only its `EOI`, a phase that reads has one. -/
theorem peek_of_ends (hk : readKind s.phase ≠ .nothing) (hends : s.mem.ends = true) : ∃ x, s.peek = some x := by
  have hin : ∃ x, s.peekIn = some x := by
    unfold State.peekIn
    cases s.mem.src[s.mem.ipos]? <;> simp [hends]
  have hdec : ∃ x, s.peekDec = some x := by
    unfold State.peekDec
    split
    · exact ⟨_, rfl⟩
    · exact hin
  unfold State.peek
  cases hp : readKind s.phase
  · exact absurd hp hk
  · exact hin
  · exact hdec

theorem fetchSymbol_of_ends (hk : readKind s.phase ≠ .nothing) (hends : s.mem.ends = true) :
    ∃ i, s.fetchSymbol = some i := by
  obtain ⟨x, hx⟩ := peek_of_ends hk hends
  obtain ⟨i, hi⟩ := decodeSymbol_reading (c := s.ctx) hk x
  exact ⟨i, fetchSymbol_eq_some_iff.mpr ⟨x, hx, selects_of_decodeSymbol hi⟩⟩

/-- With a quiet host and a source that ends, a core that reads takes a step of one transition or more. -/
theorem step_reading (hk : readKind s.phase ≠ .nothing) (hends : s.mem.ends = true) (hq : Quiet s.host) :
    ∃ h n t, Quiet h ∧ step s = .next t ∧ 1 ≤ n ∧ Transitions n (s.withHost h) t := by
  obtain ⟨h, hno, hqh⟩ := noActDue_of_quiet hq
  obtain ⟨t, ht⟩ := coreStep_total (s.withHost h)
  obtain ⟨hf, -⟩ | ⟨n, hn, -, -, htrans⟩ := coreStep_cases ht
  · obtain ⟨i, hi⟩ := fetchSymbol_of_ends (s := s.withHost h) hk hends
    obtain ⟨-, j, -, hj⟩ | ⟨-, hsymbol⟩ := fetch_cases (s := s.withHost h)
    · simp [hf] at hj
    · simp [hf, hi] at hsymbol
  · exact ⟨h, n, t, hqh, (step_of_noActDue hno).trans ht, hn, htrans⟩

/-- Where no token starts it is exactly one. -/
theorem step_reading_no_token (hk : readKind s.phase ≠ .nothing) (hends : s.mem.ends = true) (hq : Quiet s.host)
    (hp : tokenMethod s.phase = none) :
    ∃ h i x t, Quiet h ∧ step s = .next t ∧ i.symbol? = some x ∧ exec i (s.withHost h) = .next t := by
  obtain ⟨h, hno, hqh⟩ := noActDue_of_quiet hq
  obtain ⟨i, hi⟩ := fetchSymbol_of_ends (s := s.withHost h) hk hends
  obtain ⟨t, ht⟩ := exec_of_fetchSymbol hi
  have hfetch : (s.withHost h).fetch = (s.withHost h).fetchSymbol := by
    refine fetch_of_no_token (.inr ?_)
    rintro j (⟨hb, -⟩ | ⟨hb, -⟩) <;> simp only [State.withHost_phase] at hb <;> simp [hb, tokenMethod] at hp
  obtain ⟨x, -, hx, -⟩ := fetchSymbol_eq_some_iff.mp hi
  exact ⟨h, i, x, t, hqh, by rw [step_of_noActDue hno, coreStep_of_fetch (hfetch.trans hi), ht], hx, ht⟩

/-! ## An encode -/

/-- An encode that has `l` still to read, from a source that ends and with a quiet host. -/
structure Scanning (s : State) (l : List Byte) : Prop where
  phase : s.phase = .encScan
  inv   : s.Inv
  ends  : s.mem.ends = true
  rest  : s.mem.rest = l
  quiet : Quiet s.host

theorem effectOf_rest (hx : i.symbol? = some x) (s u : State) : (effectOf i s u).mem.rest = u.mem.rest := by
  have h := forward_effectOf hx s u
  rw [Memory.rest, h.src, Nat.le_antisymm h.hi h.lo]
  rfl

theorem scan_transition_byte {b : Byte} (hp : s.phase = .encScan) (hx : i.symbol? = some (.byte b)) (h : exec i s = .next t) :
    t.phase = .encScan := by
  obtain ⟨-, ha, u, hr, rfl⟩ := exec_transition_next hx h
  have hu : u.phase = .encScan := (read_phase hr).trans hp
  cases i <;> simp [admits, Instr.symbol?, effectOf, hp, hu] at hx ha ⊢

theorem transition_eoi (hx : i.symbol? = some .eoi) (h : exec i s = .next t) : t.mem.eoiTaken = true := by
  obtain ⟨-, -, u, hr, rfl⟩ := exec_transition_next hx h
  rw [effectOf_eoiTaken hx]
  obtain ⟨-, -, hx, -⟩ | ⟨-, b, hx, -⟩ | ⟨-, -, -, -, rfl⟩ := read_cases hr
  · cases hx
  · cases hx
  · rfl

/-- What one symbol of the input makes of an encode: a byte leaves an encode of the rest, the end completes it. -/
theorem scanning_step (hs : Scanning s l) : ∃ t, step s = .next t ∧ Along s t ∧
    match l with
    | _ :: r => Scanning t r
    | [] => t.Inv ∧ t.phase = .done ∧ t.mem.eoiTaken = true := by
  obtain ⟨hp, hinv, hends, hrest, hq⟩ := hs
  obtain ⟨h, i, x, t, hqh, hstep, hx, hexec⟩ :=
    step_reading_no_token (by rw [hp]; decide) hends hq (by rw [hp]; rfl)
  have hinvh := withHost_inv hinv h
  have halong := (along_withHost s h).trans (along_of_transition hinvh hx hexec)
  have hinvt := transition_keeps_inv hx hexec hinvh
  refine ⟨t, hstep, halong, ?_⟩
  obtain ⟨-, -, u, hr, ht⟩ := exec_transition_next hx hexec
  obtain ⟨hahead, heoi⟩ := read_lookahead hinvh hr
  have hrestt : t.mem.rest = u.mem.rest := by rw [ht, effectOf_rest hx]
  rw [lookahead_of_phase hinvh (by simp [hp]), State.withHost_mem, hrest] at hahead
  cases x with
  | byte b =>
    subst hahead
    have hpt := scan_transition_byte (s := s.withHost h) hp hx hexec
    exact ⟨hpt, hinvt, halong.ends.trans hends, hrestt, (exec_keeps_setting hexec).1 ▸ hqh⟩
  | eoi =>
    rw [heoi rfl] at hahead
    subst hahead
    have hdone : t.phase = .done := by
      obtain ⟨hscan, -⟩ | hdone := transition_from_scan (s := s.withHost h) hp hx hexec
      · have hended : t.phase = .done ∨ t.phase = .error := ht ▸ effectOf_phase_of_eoi hx
        simp [hscan] at hended
      · exact hdone
    exact ⟨hinvt, hdone, transition_eoi hx hexec⟩

/-- Each byte of the input takes one step (R135). -/
theorem scanning_run (hs : Scanning s l) : ∃ t, Sys2Proof.core.run l.length s = .next t ∧ Scanning t [] ∧ Along s t := by
  induction l generalizing s with
  | nil => exact ⟨s, rfl, hs, .refl s⟩
  | cons b l ih =>
    obtain ⟨u, hstep, halong, hu⟩ := scanning_step hs
    obtain ⟨t, hrun, ht, halong'⟩ := ih hu
    exact ⟨t, (run_succ hstep).trans hrun, ht, halong.trans halong'⟩

theorem run_add {m n : Nat} (h : Sys2Proof.core.run m s = .next u) :
    Sys2Proof.core.run (m + n) s = Sys2Proof.core.run n u := by
  induction m generalizing s with
  | zero => rw [Nat.zero_add, Host.Outcome.next.inj h]
  | succ m ih =>
    obtain ⟨t, ht⟩ := step_total s
    rw [run_succ ht] at h
    rw [Nat.succ_add, run_succ ht, ih h]

theorem ipos_of_eoiTaken (hinv : s.Inv) (h : s.mem.eoiTaken = true) : s.mem.ipos = s.mem.src.length :=
  (hinv.streams.2.1 h).1

/-- The state an encode command leaves: its tag written, the scan at the first byte the source holds (R106, R107). -/
def startEncode (m : Method) (s : State) : State :=
  { s.accept with method := m, phase := .encScan }.outWrite [tagByte m]

theorem commandEffect_encode {m : Method} {w : BitVec 2} (h : (m = .A ∧ w = 0b00#2) ∨ (m = .B ∧ w = 0b01#2)) (s : State) :
    commandEffect (decodeCmd w) s.accept = startEncode m s := by
  obtain ⟨rfl, rfl⟩ | ⟨rfl, rfl⟩ := h <;> rfl

theorem startEncode_inv (m : Method) (s : State) : (startEncode m s).Inv := by
  cases m with
  | A => exact commandEffect_inv (i := .encA) (.inl rfl) s
  | B => exact commandEffect_inv (i := .encB) (.inr (.inl rfl)) s

theorem scanning_startEncode (m : Method) (hends : s.mem.ends = true) (hq : Quiet s.host) :
    Scanning (startEncode m s) s.mem.rest :=
  ⟨rfl, startEncode_inv m s, hends, rfl, hq⟩

theorem startEncode_written (m : Method) (s : State) : (startEncode m s).written = [tagByte m] :=
  List.drop_left

theorem startEncode_future (m : Method) (s : State) : (startEncode m s).future = (.done, payload m s.mem.rest) :=
  future_encScan (startEncode_inv m s) rfl

/-- An encode from its start to its end: no outcome while bytes are left, and with the end the whole encoding. -/
theorem encode_run (m : Method) (hends : s.mem.ends = true) (hq : Quiet s.host) :
    (∃ u, Sys2Proof.core.run s.mem.rest.length (startEncode m s) = .next u ∧ u.outcome = none) ∧
    ∃ t, Sys2Proof.core.run (s.mem.rest.length + 1) (startEncode m s) = .next t ∧
      t.outcome = some ⟨.done, encodeStream m s.mem.rest, s.mem.rest.length, true⟩ ∧
      t.mem.sink = s.mem.sink ++ encodeStream m s.mem.rest := by
  have hstart := scanning_startEncode m hends hq
  obtain ⟨u, hrun, hu, halong⟩ := scanning_run hstart
  obtain ⟨t, hstep, halong', hinv, hdone, heoi⟩ := scanning_step hu
  refine ⟨⟨u, hrun, by simp only [State.outcome, hu.phase]⟩, t, (run_add hrun).trans (run_succ hstep), ?_⟩
  have hwhole := halong.trans halong'
  obtain ⟨houtcome, hsink⟩ := ended_along hwhole hstart.inv.streams hinv (.inl hdone)
  rw [startEncode_written, startEncode_future, heoi, ipos_of_eoiTaken hinv heoi, hwhole.src] at houtcome
  rw [startEncode_future] at hsink
  exact ⟨houtcome, hsink.trans (List.append_assoc _ _ _)⟩

/-- Settles O51: the command's step, a step for each byte, and the step that takes the end; what the scan was to deliver is the
payload, behind the tag. -/
theorem machineEncodes : Obligations.MachineEncodes := by
  intro m w l s o h hm hc hhost hq hrest hends
  have hstart := step_of_command_ready hhost hc
  rw [commandEffect_encode hm] at hstart
  have hmem : ((s.withHost h).attach o).mem = (s.attach o).mem := by cases o <;> rfl
  have hsink : (s.attach o).mem.sink = s.mem.sink := attach_sink s o
  have hqa : Quiet ((s.withHost h).attach o).host := by simpa using hq
  obtain ⟨⟨u, hrun, hu⟩, t, hrun', ht⟩ := encode_run m (hmem ▸ hends) hqa
  rw [hmem, hrest] at hrun hrun' ht
  rw [hsink] at ht
  exact ⟨⟨u, (run_succ hstart).trans hrun, hu⟩, t, (run_succ hstart).trans hrun', ht⟩

/-! ## A decode -/

/-- A state no instruction of the core's own follows: only the host's waits pass (R12). -/
theorem run_ready (hc : s.cmdReady = true) (hq : Quiet s.host) (k : Nat) :
    ∃ h, Sys2Proof.core.run k s = .next (s.withHost h) := by
  induction k generalizing s with
  | zero => exact ⟨s.host, rfl⟩
  | succ k ih =>
    obtain ⟨h, hno, hqh⟩ := noActDue_of_quiet hq
    have hstep : step s = .next (s.withHost h) :=
      (step_of_noActDue hno).trans (coreStep_of_fetch_none (fetch_none_of_ready (s := s.withHost h) hc))
    obtain ⟨h', hrun⟩ := ih (s := s.withHost h) hc hqh
    exact ⟨h', (run_succ hstep).trans hrun⟩

theorem ready_or_reading (s : State) : s.cmdReady = true ∨ readKind s.phase ≠ .nothing := by
  unfold State.cmdReady
  cases s.phase <;> simp [Phase.acceptsCommand, readKind]

theorem along_of_transitions {n : Nat} (hinv : s.Inv) (h : Transitions n s t) : Along s t := by
  induction h with
  | nil s => exact .refl s
  | cons hx he _ ih => exact (along_of_transition hinv hx he).trans (ih (transition_keeps_inv hx he hinv))

theorem measure_of_transitions {n : Nat} (hinv : s.Inv) (h : Transitions n s t) : t.measure + n ≤ s.measure := by
  induction h with
  | nil s => exact le_rfl
  | cons hx he _ ih =>
    have hlt := transitionsLowerTheMeasure _ _ _ _ hinv hx he
    have := ih (transition_keeps_inv hx he hinv)
    omega

theorem transitions_keep_setting {n : Nat} (h : Transitions n s t) : t.host = s.host := by
  induction h with
  | nil s => rfl
  | cons _ he _ ih => exact ih.trans (exec_keeps_setting he).1

theorem ready_of_measure_zero (hinv : s.Inv) (h : s.measure = 0) : s.cmdReady = true := by
  have heoi : s.mem.eoiTaken = true := by
    cases he : s.mem.eoiTaken with
    | true => rfl
    | false => simp [State.measure, he] at h
  exact cmdReady_iff.mpr (.inr (hinv.eoiEnds heoi))

/-- R134: with a quiet host and a source that ends, an operation has ended after as many steps as its measure says; what single
transitions keep is kept. -/
theorem run_ends (hkeep : ∀ i x s t, i.symbol? = some x → exec i s = .next t → P s → P t)
    (hsetting : ∀ s h, P s → P (s.withHost h)) {k : Nat} (hinv : s.Inv) (hends : s.mem.ends = true) (hq : Quiet s.host)
    (hs : P s) (hk : s.measure ≤ k) :
    ∃ t, Sys2Proof.core.run k s = .next t ∧ t.cmdReady = true ∧ t.Inv ∧ P t ∧ Along s t := by
  induction k generalizing s with
  | zero => exact ⟨s, rfl, ready_of_measure_zero hinv (Nat.le_zero.mp hk), hinv, hs, .refl s⟩
  | succ k ih =>
    obtain hc | hread := ready_or_reading s
    · obtain ⟨h, hrun⟩ := run_ready hc hq (k + 1)
      exact ⟨_, hrun, hc, withHost_inv hinv h, hsetting s h hs, along_withHost s h⟩
    · obtain ⟨h, n, u, hqh, hstep, hn, htrans⟩ := step_reading hread hends hq
      have hinvh := withHost_inv hinv h
      have halong := (along_withHost s h).trans (along_of_transitions hinvh htrans)
      have hmeasure : u.measure + n ≤ s.measure := measure_of_transitions (s := s.withHost h) hinvh htrans
      have hinvu := transitions_keep (fun _ _ _ _ => transition_keeps_inv) htrans hinvh
      have hu := transitions_keep hkeep htrans (hsetting s h hs)
      obtain ⟨t, hrun, hc, hinvt, ht, halong'⟩ :=
        ih hinvu (halong.ends.trans hends) (transitions_keep_setting htrans ▸ hqh) hu (by omega)
      exact ⟨t, (run_succ hstep).trans hrun, hc, hinvt, ht, halong.trans halong'⟩

/-- The phases of a decode behind its tag. -/
def InPayload (p : Phase) : Prop := p = .decACnt ∨ p = .decAVal ∨ p = .decBFirst ∨ p = .decBSecond ∨ p = .decBCnt

/-- A first byte that selects a decoder (R51). -/
def Tagged (l : List Byte) : Prop := ∃ b r, l = b :: r ∧ (b = Config.tagA ∨ b = Config.tagB)

/-- How much of its input a decode has taken: nothing before its tag, all of it and the `EOI` at its end, one byte where that was
no tag (R111, R149). -/
inductive Taken (s : State) : Prop
  | tag (hp : s.phase = .decTag) (h : s.mem.ipos = 0)
  | payload (hp : InPayload s.phase) (h : Tagged s.mem.src)
  | all (hp : s.phase = .done ∨ s.phase = .error) (h : Tagged s.mem.src ∨ s.mem.src = []) (he : s.mem.eoiTaken = true)
  | unknown (hp : s.phase = .error) (h : s.mem.src ≠ [] ∧ ¬Tagged s.mem.src) (hi : s.mem.ipos = 1)
      (he : s.mem.eoiTaken = false)

theorem taken_withHost (h : Taken s) (r : List HostEvent) : Taken (s.withHost r) := by
  cases h with
  | tag hp h => exact .tag hp h
  | payload hp h => exact .payload hp h
  | all hp h he => exact .all hp h he
  | unknown hp h hi he => exact .unknown hp h hi he

/-- In the payload a byte leads on within the payload. -/
theorem transition_in_payload {b : Byte} (hp : InPayload s.phase) (hx : i.symbol? = some (.byte b))
    (h : exec i s = .next t) : InPayload t.phase := by
  obtain ⟨-, ha, u, hr, rfl⟩ := exec_transition_next hx h
  have hscan : s.phase ≠ .encScan := by rintro hs; simp [InPayload, hs] at hp
  have htag : s.phase ≠ .decTag := by rintro hs; simp [InPayload, hs] at hp
  cases i <;> simp [Instr.symbol?, admits, hscan, htag, effectOf, InPayload] at hx ha ⊢

/-- What the dispatcher makes of the first symbol. -/
theorem transition_keeps_taken_of_tag (hp : s.phase = .decTag) (hpos : s.mem.ipos = 0) (hinv : s.Inv)
    (hx : i.symbol? = some x) (h : exec i s = .next t) : Taken t := by
  obtain ⟨hwf, ha, u, hr, rfl⟩ := exec_transition_next hx h
  have hopen := eoiTaken_of_read hinv hr
  rw [read_eq_inRead (by rw [hp]; rfl)] at hr
  obtain ⟨b, rfl, hb, rfl⟩ | ⟨rfl, hn, -, rfl⟩ := inRead_cases hr
  · obtain ⟨r, hr⟩ : ∃ r, s.mem.src = b :: r := by
      have hahead := rest_of_getElem?_some hb
      rw [Memory.rest, hpos, List.drop_zero] at hahead
      exact ⟨_, hahead⟩
    cases i <;> simp [Instr.symbol?, admits, hp] at hx ha
    case tagA => exact .payload (.inl rfl) ⟨b, r, hr, .inl hx.symm⟩
    case tagB => exact .payload (.inr (.inr (.inl rfl))) ⟨b, r, hr, .inr hx.symm⟩
    case tagIll =>
      subst hx
      have hno : ¬Tagged s.mem.src := by
        rintro ⟨_, _, hcons, htag⟩
        obtain ⟨rfl, -⟩ := List.cons_eq_cons.mp (hr.symm.trans hcons)
        exact htag.elim ha.1 ha.2
      exact .unknown rfl ⟨by simp [effectOf, hr], hno⟩ (congrArg (· + 1) hpos) hopen
  · have hnil := rest_of_getElem?_none hn
    rw [Memory.rest, hpos, List.drop_zero] at hnil
    cases i <;> simp [Instr.symbol?, admits, hp] at hx ha
    case tagEoi => exact .all (.inr rfl) (.inr hnil) rfl

theorem transition_keeps_taken (hx : i.symbol? = some x) (h : exec i s = .next t) (hs : s.Inv ∧ Taken s) :
    t.Inv ∧ Taken t := by
  obtain ⟨hinv, hs⟩ := hs
  have hread := readKind_of_exec hx h
  refine ⟨transition_keeps_inv hx h hinv, ?_⟩
  cases hs with
  | tag hp hpos => exact transition_keeps_taken_of_tag hp hpos hinv hx h
  | payload hp htag =>
    have hsrc : Tagged t.mem.src := (forward_of_transition hx h).src ▸ htag
    cases x with
    | byte b => exact .payload (transition_in_payload hp hx h) hsrc
    | eoi =>
      have hended : t.phase = .done ∨ t.phase = .error := by
        obtain ⟨-, -, u, -, rfl⟩ := exec_transition_next hx h
        exact effectOf_phase_of_eoi hx
      exact .all hended (.inl hsrc) (transition_eoi hx h)
  | all hp => rcases hp with hp | hp <;> rw [hp] at hread <;> exact absurd rfl hread
  | unknown hp => rw [hp] at hread; exact absurd rfl hread

/-- Where a decode has ended it has taken all of a tagged or empty input, and one byte of any other. -/
theorem taken_of_ready (h : Taken s) (hc : s.cmdReady = true) : (s.phase = .done ∨ s.phase = .error) ∧
    (((Tagged s.mem.src ∨ s.mem.src = []) ∧ s.mem.eoiTaken = true) ∨
      ((s.mem.src ≠ [] ∧ ¬Tagged s.mem.src) ∧ s.mem.ipos = 1 ∧ s.mem.eoiTaken = false)) := by
  have hp := cmdReady_iff.mp hc
  cases h with
  | tag htag => simp [htag] at hp
  | payload hpay => rcases hpay with h | h | h | h | h <;> simp [h] at hp
  | all hended h he => exact ⟨hended, .inl ⟨h, he⟩⟩
  | unknown herr h hi he => exact ⟨.inr herr, .inr ⟨h, hi, he⟩⟩

/-- The state `DEC` leaves: the tag is the first byte the source holds (R108). -/
def startDecode (s : State) : State := { s.accept with phase := .decTag }

theorem startDecode_inv (s : State) : (startDecode s).Inv := commandEffect_inv (i := .dec) (.inr (.inr rfl)) s

theorem startDecode_written (s : State) : (startDecode s).written = [] := List.drop_length

theorem startDecode_future (s : State) : (startDecode s).future = decodeStream s.mem.rest := rfl

theorem startDecode_measure (s : State) : (startDecode s).measure = 2 * s.mem.rest.length + 2 := rfl

/-- A decode from its start to its end. -/
theorem decode_run (hends : s.mem.ends = true) (hq : Quiet s.host) {k : Nat} (hk : 2 * s.mem.rest.length + 2 ≤ k) :
    ∃ t, Sys2Proof.core.run k (startDecode s) = .next t ∧ t.cmdReady = true ∧ t.Inv ∧ Taken t ∧ t.mem.src = s.mem.rest ∧
      t.outcome = some ⟨(decodeStream s.mem.rest).1, (decodeStream s.mem.rest).2, t.mem.ipos, t.mem.eoiTaken⟩ ∧
      t.mem.sink = s.mem.sink ++ (decodeStream s.mem.rest).2 := by
  have hinv := startDecode_inv s
  obtain ⟨t, hrun, hc, hinvt, ⟨-, ht⟩, halong⟩ := run_ends (P := fun s => s.Inv ∧ Taken s)
    (fun i x s t => transition_keeps_taken) (fun s h hs => ⟨withHost_inv hs.1 h, taken_withHost hs.2 h⟩) hinv hends hq
    ⟨hinv, .tag rfl rfl⟩ ((startDecode_measure s).le.trans hk)
  obtain ⟨houtcome, hsink⟩ := ended_along halong hinv.streams hinvt (taken_of_ready ht hc).1
  rw [startDecode_future, startDecode_written] at houtcome
  exact ⟨t, hrun, hc, hinvt, ht, halong.src, houtcome, hsink⟩

/-- Settles O52: the command's step and then as many as the measure says; what the decode was to deliver is what the whole-stream
decoder gives, and what it has taken is told by the first byte. -/
theorem machineDecodes : Obligations.MachineDecodes := by
  intro w l s o h hw hc hhost hq hrest hends k hk
  have hstart : step s = .next (startDecode ((s.withHost h).attach o)) := by
    rw [step_of_command_ready hhost hc, decodeCmd, if_pos hw]
    rfl
  have hmem : ((s.withHost h).attach o).mem = (s.attach o).mem := by cases o <;> rfl
  have hqa : Quiet ((s.withHost h).attach o).host := by simpa using hq
  obtain ⟨k, rfl⟩ : ∃ j, k = j + 1 := ⟨k - 1, by omega⟩
  obtain ⟨t, hrun, hct, hinv, htaken, hsrc, houtcome, hsink⟩ :=
    decode_run (hmem ▸ hends) hqa (k := k) (by rw [hmem, hrest]; omega)
  rw [hmem, hrest] at hsrc houtcome hsink
  rw [attach_sink] at hsink
  refine ⟨t, (run_succ hstart).trans hrun, ?_, hsink⟩
  rw [houtcome]
  obtain ⟨-, hfinal⟩ := taken_of_ready htaken hct
  rw [hsrc] at hfinal
  cases l with
  | nil =>
    obtain ⟨-, he⟩ | ⟨⟨hne, -⟩, -⟩ := hfinal
    · rw [he, ipos_of_eoiTaken hinv he, hsrc]; rfl
    · exact absurd rfl hne
  | cons b r =>
    by_cases htag : b = 0x21#8 ∨ b = 0x8A#8
    · obtain ⟨-, he⟩ | ⟨⟨-, hno⟩, -⟩ := hfinal
      · simp [htag, he, ipos_of_eoiTaken hinv he, hsrc]
      · exact absurd ⟨b, r, rfl, htag⟩ hno
    · obtain ⟨hsome, -⟩ | ⟨-, hpos, he⟩ := hfinal
      · obtain ⟨_, _, hcons, ht⟩ := hsome.resolve_right (List.cons_ne_nil b r)
        exact absurd ((List.cons_eq_cons.mp hcons).1 ▸ ht) htag
      · simp [htag, hpos, he]

end Sys2Proof.Machine
end

section
/-! PROOF. The pairs a list is reported as (R70, R77, R121, R128): what characterises them, and that nothing else does; and the
inputs a decoder rejects (R86, R131, R142). -/

namespace Sys2Proof.Machine

variable {l : List Byte}

/-! ## The reported pairs -/

theorem expand_chunks (l : List Byte) : expand (chunks l) = l := by
  induction l using pair_induction with
  | nil => rfl
  | last v n l hpos hcap hl ih => rw [chunks_rep_append v l hl n hpos hcap, expand_cons, ih]
  | full v l ih => rw [chunks_full_append, expand_cons, ih]

theorem bounds_of_mem_chunks (l : List Byte) : ∀ p ∈ chunks l, 1 ≤ p.2 ∧ p.2 ≤ 255 := by
  induction l using pair_induction with
  | nil => simp
  | last v n l hpos hcap hl ih =>
    rw [chunks_rep_append v l hl n hpos hcap]
    exact List.forall_mem_cons.mpr ⟨⟨hpos, hcap⟩, ih⟩
  | full v l ih =>
    rw [chunks_full_append]
    exact List.forall_mem_cons.mpr ⟨⟨Nat.le_add_left 1 254, le_rfl⟩, ih⟩

theorem head?_chunks (l : List Byte) : (chunks l).head?.map Prod.fst = l.head? := by
  rw [← head?_expand fun p hp => (bounds_of_mem_chunks l p hp).1, expand_chunks]

/-- Only a full pair may be followed by a pair of its own byte (R70 (c)). -/
theorem isChain_chunks (l : List Byte) : (chunks l).IsChain fun p q => p.1 = q.1 → p.2 = 255 := by
  induction l using pair_induction with
  | nil => exact .nil
  | last v n l hpos hcap hl ih =>
    rw [chunks_rep_append v l hl n hpos hcap, List.isChain_cons]
    refine ⟨fun q hq hv => absurd ?_ hl, ih⟩
    rw [← head?_chunks, Option.mem_def.mp hq]
    exact congrArg some hv.symm
  | full v l ih =>
    rw [chunks_full_append, List.isChain_cons]
    exact ⟨fun _ _ _ => rfl, ih⟩

/-- Pairs of allowed lengths, of which only a full one is followed by its own byte, are those reported of what they stand for. -/
theorem chunks_expand {ps : List (Byte × Nat)} (hlen : ∀ p ∈ ps, 1 ≤ p.2 ∧ p.2 ≤ 255)
    (hfull : ps.IsChain fun p q => p.1 = q.1 → p.2 = 255) : chunks (expand ps) = ps := by
  induction ps with
  | nil => rfl
  | cons p ps ih =>
    obtain ⟨⟨hpos, hcap⟩, hps⟩ := List.forall_mem_cons.mp hlen
    obtain ⟨hfirst, hrest⟩ := List.isChain_cons.mp hfull
    obtain ⟨v, n⟩ := p
    have ih := ih hps hrest
    rw [expand_cons]
    by_cases hnext : (expand ps).head? = some v
    · obtain ⟨r, hr⟩ := List.head?_eq_some_iff.mp hnext
      have hn : n = 255 := by
        rw [head?_expand fun p hp => (hps p hp).1] at hnext
        obtain ⟨q, hq, hv⟩ := Option.map_eq_some_iff.mp hnext
        exact hfirst q hq hv.symm
      rw [hr] at ih ⊢
      rw [hn, chunks_full_append, ih]
    · rw [chunks_rep_append v (expand ps) hnext n hpos hcap, ih]

/-- Settles O50: the reported pairs have the three properties, and a list that has them is what its expansion is reported as. -/
theorem reportedPairsAreUnique : Obligations.ReportedPairsAreUnique := by
  intro l ps
  rw [isChain_iff_getElem?_succ (R := fun p q : Byte × Nat => p.1 = q.1 → p.2 = 255)]
  constructor
  · rintro ⟨rfl, hlen, hfull⟩
    exact (chunks_expand hlen hfull).symm
  · rintro rfl
    exact ⟨expand_chunks l, bounds_of_mem_chunks l, isChain_chunks l⟩

/-! ## One maximal run -/

theorem chunks_rep (v : Byte) (n : Nat) : chunks (rep n v) = chunkRun (v, n) := by
  cases n with
  | zero => simp [chunkRun]
  | succ n =>
    have hruns : maxruns (rep (n + 1) v) = [(v, n + 1)] := by
      simpa using maxruns_rep_append v [] (by simp) n
    rw [chunks, hruns, List.flatMap_cons, List.flatMap_nil, List.append_nil]

/-- Settles O55: a list of one byte is one maximal run, and its pairs are computed. -/
theorem runsAreCutAt255 : Obligations.RunsAreCutAt255 := by
  have hchunks (v : Byte) (n : Nat) : chunks (List.replicate n v) = chunkRun (v, n) := chunks_rep v n
  refine ⟨chunks_rep, fun v => ?_⟩
  have h255 (m : Method) : encodeStream m (List.replicate 255 v) = tagByte m :: pairBytes m (v, 255) := by
    rw [encodeStream, payload, hchunks, chunkRun_small v 255 (by decide) le_rfl]
    simp
  have h256 (m : Method) :
      encodeStream m (List.replicate 256 v) = tagByte m :: (pairBytes m (v, 255) ++ pairBytes m (v, 1)) := by
    rw [encodeStream, payload, hchunks, chunkRun_full v 1, chunkRun_small v 1 le_rfl (by decide)]
    simp
  exact ⟨h255 .A, h256 .A, h255 .B, h256 .B⟩

/-! ## What is rejected -/

theorem decA_malformed_iff (p : List Byte) : (decA p).1 = .error .malformedStream ↔ p.length % 2 = 1 := by
  induction p using decA.induct with
  | case1 => simp [decA]
  | case2 => simp [decA]
  | case3 c v l ih =>
    have hlen : (c :: v :: l).length % 2 = l.length % 2 := Nat.add_mod_right l.length 2
    rw [decA_pair, hlen, ← ih]
    rfl

/-- Where a property does not hold at once, it comes to hold by iteration exactly if it does from the next value on. -/
theorem exists_iterate_iff {α : Type} {P : α → Prop} {f : α → α} {a : α} (h : ¬P a) :
    (∃ k, P (f^[k] a)) ↔ ∃ k, P (f^[k] (f a)) := by
  constructor
  · rintro ⟨_ | k, hk⟩
    · exact absurd hk h
    · exact ⟨k, hk⟩
  · rintro ⟨k, hk⟩
    exact ⟨k + 1, hk⟩

/-- A payload that is a run marker without its count (R98). -/
def CutRun (p : List Byte) : Prop := ∃ v, p = [v, v]

theorem dropToken_B_nil : dropToken .B [] = [] := rfl

theorem dropToken_B_single (v : Byte) : dropToken .B [v] = [] := rfl

theorem dropToken_B_run (v c : Byte) (l : List Byte) : dropToken .B (v :: v :: c :: l) = l := by
  simp [dropToken, splitToken_B_run]

theorem dropToken_B_lit {v w : Byte} (h : w ≠ v) (l : List Byte) : dropToken .B (v :: w :: l) = w :: l := by
  simp [dropToken, splitToken_B_lit h]

theorem not_cutRun_iterate_nil (k : Nat) : ¬CutRun ((dropToken .B)^[k] []) := by
  rw [Function.iterate_fixed dropToken_B_nil]
  rintro ⟨v, hv⟩
  cases hv

/-- Token by token: each drops from the payload what the decoder goes on from, until nothing or a cut run is left (R53, R98). -/
theorem decB_malformed_iff (p : List Byte) :
    (decB p).1 = .error .malformedStream ↔ ∃ k, CutRun ((dropToken .B)^[k] p) := by
  induction p using decB.induct with
  | case1 => exact iff_of_false (by simp [decB]) fun ⟨k, hk⟩ => not_cutRun_iterate_nil k hk
  | case2 v =>
    rw [exists_iterate_iff (P := CutRun) (by simp [CutRun]), dropToken_B_single]
    exact iff_of_false (by simp [decB]) fun ⟨k, hk⟩ => not_cutRun_iterate_nil k hk
  | case3 v => exact iff_of_true (by simp [decB]) ⟨0, v, rfl⟩
  | case4 v c l ih =>
    rw [exists_iterate_iff (P := CutRun) (by simp [CutRun]), dropToken_B_run, decB_run, ← ih]
    rfl
  | case5 v w l h ih =>
    rw [exists_iterate_iff (P := CutRun) ?_, dropToken_B_lit h, decB_lit v w l h, ← ih]
    · rfl
    · rintro ⟨u, hu⟩
      simp at hu
      exact h (hu.2.1.trans hu.1.symm)

/-- Behind a canonical payload that does not end in it, a doubled byte is a cut run marker: every token before it is read whole. -/
theorem decB_payload_doubled {v : Byte} (h : l.getLast? ≠ some v) :
    (decB (payload .B l ++ [v, v])).1 = .error .malformedStream := by
  induction l using pair_induction with
  | nil => simp [payload_nil, decB]
  | last w n l hpos hcap hl ih =>
    have hlast : l.getLast? ≠ some v := by
      rintro he
      exact h (by rw [List.getLast?_append, he]; rfl)
    have hnext : n = 1 → (payload .B l ++ [v, v]).head? ≠ some w := by
      rintro rfl
      rw [List.head?_append, head?_payload_B]
      cases l with
      | nil => rintro e; cases e; exact h rfl
      | cons b l => exact hl
    rw [payload_rep_append .B w l hl n hpos hcap, List.append_assoc, decB_pairBytes hcap hnext]
    exact ih hlast
  | full w l ih =>
    have hlast : (w :: l).getLast? ≠ some v := by
      rintro he
      exact h (by rw [List.getLast?_append, he]; rfl)
    rw [payload_full_append, List.append_assoc, decB_pairBytes le_rfl (absurd · (by decide))]
    exact ih hlast

/-- Settles O57: the parity of a Method-A payload, the greedy reading of a Method-B payload, and the first byte. -/
theorem malformedInputIsRejected : Obligations.MalformedInputIsRejected := by
  refine ⟨decA_malformed_iff, fun p => ?methodB, fun l v h => decB_payload_doubled h, ?tripled, fun t p hA hB => ?unknown⟩
  case methodB => exact decB_malformed_iff p
  case tripled => exact decB_run 0x41 0x41 []
  case unknown =>
    have hA : t ≠ Config.tagA := hA
    have hB : t ≠ Config.tagB := hB
    simp [decodeStream, hA, hB]

end Sys2Proof.Machine
end

section
/-! PROOF. The ports (R42 to R47): an edge is a step of the core, a byte of its output, a reset or nothing. -/

namespace Sys2Proof.Machine

variable {i : PinsIn} {p : Ports} {j : Instr} {s t : State}

/-! ## The step of an edge -/

theorem advance_of_step (h : step s = .next t) (p : Ports) :
    p.advance s = ⟨{ t with mem := { t.mem with sink := s.mem.sink } }, t.mem.sink.drop s.mem.sink.length, s.status⟩ := by
  simp [Ports.advance, h]

theorem advance_shown (p : Ports) (s : State) : (p.advance s).shown = s.status := by
  obtain ⟨t, h⟩ := step_total s
  rw [advance_of_step h]

/-- The output held back and the sink as it was make up the sink after the step, which only appends (R34). -/
theorem step_advance (p : Ports) (s : State) : step s = .next (p.advance s).abs := by
  obtain ⟨t, h⟩ := step_total s
  obtain ⟨⟨l, hl⟩, -⟩ := streamsOnlyGoForward s t h
  have habs : (p.advance s).abs = t := by
    rw [advance_of_step h, Ports.abs, State.outWrite, hl, List.drop_left, ← hl]
  rw [habs, h]

@[simp] theorem Ports.cmdReady_eq_true_iff : p.cmdReady = true ↔ p.pend = [] ∧ p.core.cmdReady = true := by
  simp [Ports.cmdReady]

@[simp] theorem Ports.inReady_eq_true_iff : p.inReady = true ↔
    p.pend = [] ∧ p.core.busy = true ∧ ¬(p.core.phase = .decBFirst ∧ p.core.laValid = true) := by
  simp [Ports.inReady, and_assoc, imp_iff_not_or]

@[simp] theorem Ports.outValid_eq_false_iff : p.outValid = false ↔ p.pend = [] := by
  simp [Ports.outValid]

theorem not_cmdReady_of_busy (h : s.busy = true) : s.cmdReady = false := by
  rw [busy_eq_not_cmdReady] at h
  simpa using h

/-! ## The symbol delivered -/

/-- What the input channel delivers is what the next read of the source returns (R43). -/
theorem deliver_peekIn (hw : s.mem.ipos ≤ s.mem.src.length) (eoi : Bool) (d : Byte) :
    (s.deliver eoi d).peekIn = some (if eoi = true then .eoi else .byte d) := by
  have hlen : (s.mem.src.take s.mem.ipos).length = s.mem.ipos := List.length_take_of_le hw
  cases eoi with
  | true =>
    have hend : (s.deliver true d).mem.src[(s.deliver true d).mem.ipos]? = none :=
      List.getElem?_eq_none_iff.mpr hlen.le
    have hends : (s.deliver true d).mem.ends = true := rfl
    simp [State.peekIn, hend, hends]
  | false =>
    have hnext : (s.deliver false d).mem.src[(s.deliver false d).mem.ipos]? = some d := by
      have h := List.getElem?_concat_length (l := s.mem.src.take s.mem.ipos) (a := d)
      rwa [hlen] at h
    simp [State.peekIn, hnext]

theorem deliver_peek (hinv : s.Inv) (hb : s.busy = true) (hl : ¬(s.phase = .decBFirst ∧ s.laValid = true)) (eoi : Bool)
    (d : Byte) : (s.deliver eoi d).peek = some (if eoi = true then .eoi else .byte d) := by
  have hempty : s.laValid = false := by
    by_contra h
    have h : s.laValid = true := by simpa using h
    exact hl ⟨hinv.pushback h, h⟩
  have hempty' : (s.deliver eoi d).laValid = false := hempty
  have hk : readKind s.phase ≠ .nothing := (ready_or_reading s).resolve_left (by simp [not_cmdReady_of_busy hb])
  rw [← deliver_peekIn hinv.streams.1 eoi d]
  cases h : readKind s.phase with
  | nothing => exact absurd h hk
  | inRead => simp [State.peek, h]
  | decRead => simp [State.peek, State.peekDec, h, hempty']

/-- Settles O58: where a line pair, or the buffer, lets the core step, the edge is that step; an edge that moves a byte of output
leaves the abstract state as it is. -/
theorem portEdgeIsOneAbstractStep : Obligations.PortEdgeIsOneAbstractStep := by
  intro i p hrst _ _
  refine ⟨fun ⟨hready, hvalid⟩ => ?command, fun ⟨hready, hvalid⟩ => ?symbol, fun ⟨hout, hp, hl⟩ => ?pushback,
    fun ⟨hnoCmd, hnoIn, hnoBack⟩ => ?still⟩
  case command =>
    obtain ⟨hpend, hc⟩ := Ports.cmdReady_eq_true_iff.mp hready
    have hedge : p.edge i = p.advance (p.core.withHost [.command i.cmd (some ⟨[], false⟩)]) := by
      simp [Ports.edge, hrst, hpend, hc, hvalid]
    exact hedge ▸ step_advance p _
  case symbol =>
    obtain ⟨hpend, hb, hl⟩ := Ports.inReady_eq_true_iff.mp hready
    have hedge : p.edge i = p.advance (p.core.deliver i.inEoi i.inData) := by
      simp [Ports.edge, hrst, hpend, not_cmdReady_of_busy hb, hl, hvalid]
    exact ⟨hedge ▸ step_advance p _, fun hinv => deliver_peek hinv hb hl _ _⟩
  case pushback =>
    have hc : p.core.cmdReady = false := by rw [State.cmdReady, hp]; rfl
    have hedge : p.edge i = p.advance p.core := by
      simp [Ports.edge, hrst, Ports.outValid_eq_false_iff.mp hout, hc, hp, hl]
    exact hedge ▸ step_advance p _
  case still =>
    obtain ⟨hr, -⟩ | ⟨-, -, b, l, hpend, hedge⟩ | ⟨-, hedge⟩ | ⟨-, hpend, hc, hv, -⟩ | ⟨-, hpend, -, hp, hl, -⟩ |
      ⟨-, hpend, hc, hl, hv, -⟩ := edge_cases (i := i) (p := p)
    · simp [hrst] at hr
    · rw [hedge, Ports.abs, Ports.abs, State.outWrite_outWrite, hpend]
      rfl
    · rw [hedge]
    · exact absurd ⟨Ports.cmdReady_eq_true_iff.mpr ⟨hpend, hc⟩, hv⟩ hnoCmd
    · exact absurd ⟨Ports.outValid_eq_false_iff.mpr hpend, hp, hl⟩ hnoBack
    · exact absurd ⟨Ports.inReady_eq_true_iff.mpr ⟨hpend, by rw [busy_eq_not_cmdReady, hc]; rfl, hl⟩, hv⟩ hnoIn

/-! ## `STATUS` and the output -/

theorem status_of_edge_pending (h : (p.edge i).pend ≠ []) : (p.edge i).status = p.status := by
  have advanced {s : State} (hpend : p.pend = []) (hedge : p.edge i = p.advance s) (hs : s.status = p.core.status) :
      (p.edge i).status = p.status := by
    rw [Ports.status_of_pend h, hedge, advance_shown, hs, Ports.status_of_pend_nil hpend]
  obtain ⟨-, hedge⟩ | ⟨-, -, b, l, hpend, hedge⟩ | ⟨-, hedge⟩ | ⟨-, hpend, -, -, hedge⟩ | ⟨-, hpend, -, -, -, hedge⟩ |
    ⟨-, hpend, -, -, -, hedge⟩ := edge_cases (i := i) (p := p)
  · exact absurd (by rw [hedge]) h
  · rw [Ports.status_of_pend h, hedge, Ports.status_of_pend (by simp [hpend])]
  · rw [hedge]
  · exact advanced hpend hedge rfl
  · exact advanced hpend hedge rfl
  · exact advanced hpend hedge rfl

/-- Settles O59: the edge with output pending, the edge of reset, and what `STATUS` shows beside a step. -/
theorem outputIsTransferredInOrder : Obligations.OutputIsTransferredInOrder := by
  intro i p
  refine ⟨fun b l hrst hpend => ⟨by simp [Ports.outData, hpend], fun hready => ?sent, fun hwait => ?held⟩,
    status_of_edge_pending, fun hpend => ?status, fun hrst => ?reset⟩
  case sent =>
    have hedge : p.edge i = ⟨p.core.outWrite [b], l, p.shown⟩ := by simp [Ports.edge, hrst, hpend, hready]
    rw [hedge]
    exact ⟨rfl, rfl⟩
  case held => simp [Ports.edge, hrst, hpend, hwait]
  case status => rw [Ports.status_of_pend_nil hpend, Ports.abs, hpend, State.outWrite_nil]
  case reset =>
    have hedge : p.edge i = ⟨p.core.applyReset, [], p.core.applyReset.status⟩ := by simp [Ports.edge, hrst]
    rw [hedge]
    exact ⟨rfl, rfl, rfl, applyReset_status⟩

/-! ## The port invariant -/

/-- What an encode command writes is its tag, and it leads to the scan; `DEC` writes nothing. -/
theorem commandEffect_output (hi : IsCommand j) (s : State) :
    (commandEffect j s).mem.sink = s.mem.sink ∨
    ((commandEffect j s).phase = .encScan ∧
      (commandEffect j s).mem.sink = s.mem.sink ++ [tagByte (commandEffect j s).method]) := by
  obtain rfl | rfl | rfl := hi
  · exact .inr ⟨rfl, rfl⟩
  · exact .inr ⟨rfl, rfl⟩
  · exact .inl rfl

/-- So at the ports the output of a command is the tag of the method the core then has, or nothing. -/
theorem advance_command_pend (p : Ports) (hc : s.cmdReady = true) (w : BitVec 2) (o : Option Stream) :
    (p.advance (s.withHost [.command w o])).pend = [] ∨
    ((p.advance (s.withHost [.command w o])).core.phase = .encScan ∧
      (p.advance (s.withHost [.command w o])).pend = [tagByte (p.advance (s.withHost [.command w o])).core.method]) := by
  rw [advance_of_step (step_of_command_ready (s := s.withHost [.command w o]) rfl hc)]
  have hsink : (((s.withHost [.command w o]).withHost []).attach o).accept.mem.sink = s.mem.sink := attach_sink _ o
  obtain hnone | ⟨hp, htag⟩ := commandEffect_output (isCommand_decodeCmd w)
    (((s.withHost [.command w o]).withHost []).attach o).accept
  · exact .inl (by rw [hnone, hsink]; exact List.drop_length)
  · exact .inr ⟨hp, by rw [htag, hsink]; exact List.drop_left⟩

/-- Every edge keeps it: only the step of a command is taken where `STATUS` is not busy. -/
theorem edge_inv (h : p.Inv) : (p.edge i).Inv := by
  have running {s : State} (hs : s.busy = true) : (p.advance s).Inv :=
    fun _ => .inl (by rw [advance_shown, status_busy_bit, hs])
  have busy (hc : p.core.cmdReady = false) : p.core.busy = true := by rw [busy_eq_not_cmdReady, hc]; rfl
  obtain ⟨-, hedge⟩ | ⟨-, -, b, l, hpend, hedge⟩ | ⟨-, hedge⟩ | ⟨-, -, hc, -, hedge⟩ | ⟨-, -, hc, -, -, hedge⟩ |
    ⟨-, -, hc, -, -, hedge⟩ := edge_cases (i := i) (p := p)
  all_goals rw [hedge]
  · exact fun hne => absurd rfl hne
  · intro hne
    obtain hshown | ⟨-, htag⟩ := h (by simp [hpend])
    · exact .inl hshown
    · exact absurd (List.cons_eq_cons.mp (hpend.symm.trans htag)).2 hne
  · exact h
  · intro hne
    exact .inr ((advance_command_pend p hc i.cmd _).resolve_left hne)
  · exact running (busy hc)
  · exact running (s := p.core.deliver i.inEoi i.inData) (busy hc)

/-- Settles O60: with nothing pending `STATUS` is the core's; with output pending it shows a step that runs, or the tag of a command
is what is pending. -/
theorem streamsAreReleasedWhenNotBusy : Obligations.StreamsAreReleasedWhenNotBusy := by
  refine fun i p hinv => ⟨edge_inv hinv, fun hidle => ?released, fun hbusy => ?running⟩
  case released =>
    by_cases hpend : p.pend = []
    · have hb : p.core.busy = false := by rw [← status_busy_bit, ← Ports.status_of_pend_nil hpend, hidle]
      have hc : p.core.cmdReady = true := by simpa [busy_eq_not_cmdReady] using hb
      have hready : p.cmdReady = true := Ports.cmdReady_eq_true_iff.mpr ⟨hpend, hc⟩
      exact ⟨by simp [Ports.inReady, hb], .inl ⟨Ports.outValid_eq_false_iff.mpr hpend, hready⟩⟩
    · rw [Ports.status_of_pend hpend] at hidle
      obtain ⟨hp, htag⟩ := (hinv hpend).resolve_left (by rw [hidle]; exact Bool.false_ne_true)
      exact ⟨by simp [Ports.inReady, hpend], .inr ⟨hp, htag, by simp [Ports.cmdReady, hpend]⟩⟩
  case running =>
    by_contra hc
    obtain ⟨hpend, hready⟩ := Ports.cmdReady_eq_true_iff.mp (by simpa using hc)
    rw [Ports.status_of_pend_nil hpend, status_busy_bit, busy_eq_not_cmdReady, hready] at hbusy
    cases hbusy

end Sys2Proof.Machine
end
